-- ==== Sys2Proof/Word.lean ====
section
/-! DEFINITION. The byte, the bus address, the mode of a process, and the two written forms of what a host presents
(spec/30_encoding.md rules R60 and R66). Plain data only. -/

namespace Sys2Proof

/-- Every data cell, control register and bus transfer is one 8-bit unsigned value (R4 `BYTE_W`, R46). -/
abbrev Byte := BitVec 8

/-- A bus address: the 11 pins `addr[10:0]` (R4 `ADDR_W`, R40). -/
abbrev Addr := BitVec 11

/-- The mode of a process (R8, R9): `forward` is the mode bit `M = 0`, `inverse` is `M = 1`. -/
inductive Mode where
  | forward
  | inverse
  deriving DecidableEq, Repr

/-- A word as a listing of host transactions writes it (R60, R66). -/
inductive HostWord where
  /-- Format `CMD8`: a command byte, the value of a host write to `CMD` (R60). -/
  | cmd8 (v : Byte)
  /-- Format `BUS20`: bit 19 `WE`, bits 18:8 `ADDR`, bits 7:0 `WDATA`, the values on the ports in one transaction (R66). -/
  | bus20 (w : BitVec 20)
  deriving DecidableEq, Repr

end Sys2Proof
end

