-- ==== Sys2Proof/Config.lean ====
section
/-! DEFINITION. What is fixed for this machine: the implementation parameters of spec/00_scope.md rule R4, and the one
free value the spec leaves open, the contents of a cell that nothing has written since power-up. -/

namespace Sys2Proof.Config

/-- `KEY_STEP` (R4): the multiplier of the key formula. -/
abbrev keyStep : Nat := 42

/-- `ROUNDS_DEFAULT` (R4, R15): the reset value of `ROUNDS`. -/
abbrev roundsDefault : Nat := 4

/-- `DBUF_CELLS` (R4; the default capacities, DESIGN CHOICE, assumption log 4): cells in `DIN` and in `DOUT`. -/
abbrev dbufCells : Nat := 254

/-- `HALF_CELLS` (R4): cells in `LEFT` and in `RIGHT`. -/
abbrev halfCells : Nat := 127

/-- `KEY_CELLS` (R4): cells in the key store `KEY`. -/
abbrev keyCells : Nat := 255

/-- The base addresses of the five cell arrays in the address map (R41). -/
abbrev keyBase : Nat := 0x100
@[inherit_doc keyBase] abbrev dinBase : Nat := 0x200
@[inherit_doc keyBase] abbrev doutBase : Nat := 0x300
@[inherit_doc keyBase] abbrev leftBase : Nat := 0x400
@[inherit_doc keyBase] abbrev rightBase : Nat := 0x480

/-- FREE VALUE: the byte that the cell at a bus address holds from power-up until something first writes it
(R141, R146; spec/93_implementation_defined.md U1 `any value`: one arbitrary byte for each cell on its own, fixed
until first written, "Never model it as zero"). It has no body, so nothing can be proved of the value.
DESIGN CHOICE (safe), assumption log 1. -/
opaque powerUpCell : Nat → Byte

end Sys2Proof.Config
end

