-- ==== Sys2Proof/Syntax.lean ====
section
/-! DEFINITION. The instructions: one constructor for each row of spec/opcode_table.json. The six commands are operations
of the command byte (R60, R61); `WR` and `RD` are the two bus transactions (R66, R114, R115). -/

namespace Sys2Proof

/-- An instruction of this hardware: a command of the set FRE-1, or one bus transaction of the host. A command has no
operand fields (R60, R64); a transaction has an 11-bit address and, when it writes, a byte (R66). -/
inductive Instr where
  /-- `NOP`, command byte 0x00 (R112). -/
  | nop
  /-- `GENKEYS`, command byte 0x02 (R76). -/
  | genkeys
  /-- `PROCESS.FWD`, command byte 0x04 (R89). -/
  | processFwd
  /-- `PROCESS.INV`, command byte 0x05 (R90). -/
  | processInv
  /-- `ENCRYPT`, command byte 0x06 (R110). -/
  | encrypt
  /-- `DECRYPT`, command byte 0x07 (R111). -/
  | decrypt
  /-- `WR target, byte`, a `BUS20` word with `WE = 1` (R114). -/
  | wr (addr : Addr) (data : Byte)
  /-- `RD target`, a `BUS20` word with `WE = 0` and `WDATA = 0` (R115). -/
  | rd (addr : Addr)
  deriving DecidableEq, Repr

end Sys2Proof
end

