-- ==== Sys2Proof/Decode.lean ====
section
/-! DEFINITION. The decoder, total on every word and rejecting by name, and after it the encoder
(spec/30_encoding.md rules R60, R61, R63, R66). -/

namespace Sys2Proof

/-- Why a word is none of the instructions of the table. -/
inductive DecodeError where
  /-- One of the 250 reserved command bytes (R63). -/
  | reservedCommand (v : Byte)
  /-- `WE = 0` with `WDATA` not zero: "not a transaction this spec lists" (R66). -/
  | readWithData (addr : Addr) (wdata : Byte)
  deriving DecidableEq, Repr

/-- The command byte, decoded by the opcode map alone (R61, R65); every other value is reserved (R63). -/
def decodeCommand (v : Byte) : Except DecodeError Instr :=
  if v = 0x00#8 then .ok .nop
  else if v = 0x02#8 then .ok .genkeys
  else if v = 0x04#8 then .ok .processFwd
  else if v = 0x05#8 then .ok .processInv
  else if v = 0x06#8 then .ok .encrypt
  else if v = 0x07#8 then .ok .decrypt
  else .error (.reservedCommand v)

/-- Field `WE` of a `BUS20` word: bit 19 (R66). -/
def busWe (w : BitVec 20) : Bool := w.getLsbD 19

/-- Field `ADDR` of a `BUS20` word: bits 18:8 (R66). -/
def busAddr (w : BitVec 20) : Addr := w.extractLsb' 8 11

/-- Field `WDATA` of a `BUS20` word: bits 7:0 (R66). -/
def busData (w : BitVec 20) : Byte := w.extractLsb' 0 8

/-- A `BUS20` word: `WE = 1` is a write, `WE = 0` with `WDATA = 0` a read (R66). -/
def decodeBus (w : BitVec 20) : Except DecodeError Instr :=
  if busWe w then .ok (.wr (busAddr w) (busData w))
  else if busData w = 0#8 then .ok (.rd (busAddr w))
  else .error (.readWithData (busAddr w) (busData w))

/-- The decoder: the instruction that a listed word stands for, or why it stands for none. -/
def decode : HostWord → Except DecodeError Instr
  | .cmd8 v => decodeCommand v
  | .bus20 w => decodeBus w

/-- A `BUS20` word from its fields, "word `0x80000 + ADDR * 0x100 + WDATA`" for a write and "`ADDR * 0x100`" for a
read (R66). -/
def busWord (we : Bool) (addr : Addr) (data : Byte) : BitVec 20 :=
  BitVec.ofNat 20 ((if we then 0x80000 else 0) + addr.toNat * 0x100 + data.toNat)

/-- The encoder (R61, R66). -/
def encode : Instr → HostWord
  | .nop => .cmd8 0x00#8
  | .genkeys => .cmd8 0x02#8
  | .processFwd => .cmd8 0x04#8
  | .processInv => .cmd8 0x05#8
  | .encrypt => .cmd8 0x06#8
  | .decrypt => .cmd8 0x07#8
  | .wr a d => .bus20 (busWord true a d)
  | .rd a => .bus20 (busWord false a 0#8)

/-- The word that the opcode table writes with `nbits` bits, of value `w`: a row of at most 8 bits is a command byte, a
wider one a `BUS20` word; none where the value does not fit its format (DESIGN CHOICE, safe; assumption log 9). -/
def HostWord.ofTable (nbits w : Nat) : Option HostWord :=
  if nbits ≤ 8 then
    if w < 2 ^ 8 then some (.cmd8 (BitVec.ofNat 8 w)) else none
  else
    if w < 2 ^ 20 then some (.bus20 (BitVec.ofNat 20 w)) else none

/-- The instruction the decoder reads from an opcode-table word (bit 0 the least significant bit of the number). -/
def decodeTableWord (nbits w : Nat) : Option Instr :=
  match HostWord.ofTable nbits w with
  | none => none
  | some h =>
    match decode h with
    | .ok i => some i
    | .error _ => none

end Sys2Proof
end

