-- ==== Sys2Proof/Machine/State.lean ====
section
/-! DEFINITION. The state of the block exactly as spec/10_state.md rule R10 lists it (`Block`), the state of the two agents
around it (`State`), the reasons a step can stop, and the state after reset. -/

namespace Sys2Proof.Machine

/-- `PHASE.STATE` (R20): which engine step is next. The values 5, 6 and 7 never occur. -/
inductive PhaseState where
  | idle
  | kgen
  | load
  | round
  | store
  deriving DecidableEq, Repr

/-- What a bus address names (R41). -/
inductive Location where
  | cmd
  | status
  | rounds
  | klen
  | blen
  | rnd
  | phase
  | ki
  | key (n : Fin Config.keyCells)
  | din (n : Fin Config.dbufCells)
  | dout (n : Fin Config.dbufCells)
  | left (n : Fin Config.halfCells)
  | right (n : Fin Config.halfCells)
  /-- An address that holds no state (R44). -/
  | reserved
  deriving DecidableEq, Repr

/-- "The complete state of the block is the following and nothing else" (R10). Data cells are arrays of bytes; the fields
of `STATUS` (R18) and `PHASE` (R20) stand apart, their reserved bits hold no state and read as 0. -/
structure Block where
  /-- `DIN[0..253]`: the input block (R11). -/
  din : Vector Byte Config.dbufCells
  /-- `DOUT[0..253]`: the output block (R12). -/
  dout : Vector Byte Config.dbufCells
  /-- `KEY[0..254]`: the key store (R13). -/
  key : Vector Byte Config.keyCells
  /-- `LEFT[0..126]`: the working left half (R14). -/
  left : Vector Byte Config.halfCells
  /-- `RIGHT[0..126]`: the working right half (R14). -/
  right : Vector Byte Config.halfCells
  /-- `ROUNDS`: the round count handed to key generation (R15). -/
  rounds : Byte
  /-- `KLEN`: the length of the key sequence in force (R16). -/
  klen : Byte
  /-- `BLEN`: the block length in bytes (R17). -/
  blen : Byte
  /-- `RND`: the round counter (R19). -/
  rnd : Byte
  /-- `KI`: the key-generation counter (R21). -/
  ki : Byte
  /-- `PHASE.STATE` (R20). -/
  phase : PhaseState
  /-- `PHASE.M` (R20). -/
  mode : Mode
  /-- `PHASE.CH` (R20). -/
  chain : Bool
  /-- `STATUS.BUSY` (R18). -/
  busy : Bool
  /-- `STATUS.DONE` (R18). -/
  done : Bool
  /-- `STATUS.ERR` (R18). -/
  err : Bool
  deriving DecidableEq, Repr

/-- One line of the host's program. -/
inductive HostLine where
  /-- One transaction, as its listing word (R66, R67). -/
  | word (w : HostWord)
  /-- `WAIT`: repeat `RD STATUS` until the value read has `BUSY = 0` (R67, R116). -/
  | wait
  deriving DecidableEq, Repr

/-- Whose step comes next in the one total order of steps (R5, R50). -/
inductive Turn where
  /-- A host step: one bus transaction. -/
  | host
  /-- An engine step: one step of the state machine. -/
  | engine
  /-- The reset event (R140). -/
  | reset
  deriving DecidableEq, Repr

/-- The machine: the block, and the state of the agents around it. The last three fields are the MODEL'S OWN, not the
spec's state: the outside world as data (DESIGN CHOICE, assumption log 2 and 3). -/
structure State where
  /-- The whole state of the block (R10). -/
  block : Block
  /-- The bytes the block has delivered on the `rdata` port, newest first: one for each read the host has made (R40, R42). -/
  rdata : List Byte
  /-- The host's program still to run, first line first (R67). -/
  script : List HostLine
  /-- The interleaving still to come, first turn first; any list, so any interleaving (R5, R50). -/
  turns : List Turn
  deriving DecidableEq, Repr

/-- The reasons the machine can stop with a fault: none. "Nothing in this hardware is modelled as `fault` other than the
one architectural error `MalformedInput`, which is a defined outcome and not a model fault"
(spec/93_implementation_defined.md section 2). -/
inductive Fault where
  deriving DecidableEq, Repr

/-- The reasons an instruction has no meaning. -/
inductive Refusal where
  /-- Raised by an arm of `exec` whose instruction has no meaning yet. SAFE: the model stops where the hardware goes on.
  No arm raises it: every instruction has its meaning. -/
  | notModelled (mnemonic : String)
  deriving DecidableEq, Repr

/-- The block after power-up and the first reset (R27, R141): the control registers at their reset values, every cell of
the five arrays at the free value of its own address (assumption log 1). The time before that reset is left out (DEDUCED
from U2, safe; assumption log 6). -/
def Block.reset : Block where
  din := Vector.ofFn fun j => Config.powerUpCell (Config.dinBase + j.val)
  dout := Vector.ofFn fun j => Config.powerUpCell (Config.doutBase + j.val)
  key := Vector.ofFn fun j => Config.powerUpCell (Config.keyBase + j.val)
  left := Vector.ofFn fun j => Config.powerUpCell (Config.leftBase + j.val)
  right := Vector.ofFn fun j => Config.powerUpCell (Config.rightBase + j.val)
  rounds := BitVec.ofNat 8 Config.roundsDefault
  klen := 0#8
  blen := 0#8
  rnd := 0#8
  ki := 0#8
  phase := .idle
  mode := .forward
  chain := false
  busy := false
  done := false
  err := false

/-- The machine right after reset (R27, R141): "the block sits in IDLE until the host writes a command" (R140). No program
is presented, no read has been made and no interleaving is laid down (assumption log 2, 3). -/
def State.reset : State where
  block := Block.reset
  rdata := []
  script := []
  turns := []

end Sys2Proof.Machine
end

