-- ==== Sys2Proof/Machine/Flags.lean ====
section
/-! DEFINITION. The status bits and the two packed registers. There are no arithmetic flags (R25): the only flags are
`BUSY`, `DONE` and `ERR` (R18), set and cleared by the three operations below and by reset. -/

namespace Sys2Proof.Machine

/-- The 3-bit code of `PHASE.STATE` (R20): 0 IDLE, 1 KGEN, 2 LOAD, 3 ROUND, 4 STORE. -/
def PhaseState.code : PhaseState → BitVec 3
  | .idle => 0#3
  | .kgen => 1#3
  | .load => 2#3
  | .round => 3#3
  | .store => 4#3

/-- The mode bit `M` (R8, R20): 0 FORWARD, 1 INVERSE. -/
def modeBit : Mode → Bool
  | .forward => false
  | .inverse => true

/-- The `STATUS` register as read: `BUSY` bit 0, `DONE` bit 1, `ERR` bit 2, bits 7:3 read as 0 (R18). -/
def Block.statusByte (b : Block) : Byte :=
  0#5 ++ BitVec.ofBool b.err ++ BitVec.ofBool b.done ++ BitVec.ofBool b.busy

/-- The `PHASE` register as read: `STATE` bits 2:0, `M` bit 3, `CH` bit 4, bits 7:5 read as 0 (R20). -/
def Block.phaseByte (b : Block) : Byte :=
  0#3 ++ BitVec.ofBool b.chain ++ BitVec.ofBool (modeBit b.mode) ++ b.phase.code

/-- The flags at the acceptance of a command: `BUSY <- 1; DONE <- 0; ERR <- 0` (R62). -/
def Block.acceptFlags (b : Block) : Block := { b with busy := true, done := false, err := false }

/-- The last step of a command that ends normally: `BUSY <- 0; DONE <- 1`, and back to IDLE (R77, R93). -/
def Block.endNormally (b : Block) : Block := { b with busy := false, done := true, phase := .idle }

/-- The three status outputs `busy`, `done`, `err`, which "always equal `STATUS.BUSY`, `STATUS.DONE`, `STATUS.ERR`"
(R40). -/
structure StatusPorts where
  busy : Bool
  done : Bool
  err : Bool
  deriving DecidableEq, Repr

/-- What the block drives on its status outputs (R40, R122). -/
def Block.statusPorts (b : Block) : StatusPorts := ⟨b.busy, b.done, b.err⟩

end Sys2Proof.Machine
end

