-- ==== Sys2Proof/Machine/Function.lean ====
section
/-! DEFINITION. The function level (R5): the source's pure functions over byte sequences, `generate` (R75) and `process`
(R88), and the round they are made of. The engine steps share the byte operations and the key selection with them. -/

namespace Sys2Proof.Machine

/-- Key `i` (0-indexed) of a generated schedule: `((i + 1) * 42) mod 256`, an exact product cut to its low 8 bits
(R75, R79). -/
def keyByte (i : Nat) : Byte := BitVec.ofNat 8 ((i + 1) * Config.keyStep)

/-- `generate(rounds)`: exactly `rounds` bytes (R75). -/
def generate (rounds : Nat) : List Byte := (List.range rounds).map keyByte

/-- The round function, `(data + key) mod 256`, the carry discarded (R85). -/
def roundFunction (data key : Byte) : Byte := data + key

/-- The key index of round `i` of `n` (R86). -/
def kidx (mode : Mode) (n i : Nat) : Nat :=
  match mode with
  | .forward => i
  | .inverse => n - 1 - i

/-- The two halves of a block under way. -/
structure Halves where
  left : List Byte
  right : List Byte
  deriving DecidableEq, Repr

/-- One round: `left' = right`, `right'[j] = left[j] XOR ((right[j] + k) mod 256)`, both of the old halves (R87). -/
def Halves.round (h : Halves) (k : Byte) : Halves where
  left := h.right
  right := List.zipWith (fun l r => l ^^^ roundFunction r k) h.left h.right

/-- The key of round `i`, `keys[kidx(i)]` (R86); the index is inside the sequence for every `i < keys.length`, the only
rounds there are, so the default is never the key of a round (DESIGN CHOICE, safe; assumption log 10). -/
def roundKey (mode : Mode) (keys : List Byte) (i : Nat) : Byte := keys.getD (kidx mode keys.length i) 0#8

/-- The halves after the first `n` rounds, `(L(n), R(n))` (R88). -/
def Halves.afterRounds (mode : Mode) (keys : List Byte) (h : Halves) : Nat → Halves
  | 0 => h
  | n + 1 => (h.afterRounds mode keys n).round (roundKey mode keys n)

/-- Split a block into first half and second half (R88). -/
def Halves.split (block : List Byte) : Halves where
  left := block.take (block.length / 2)
  right := block.drop (block.length / 2)

/-- The one way `process` fails (R88, R120). -/
inductive ProcessError where
  /-- `MalformedInput`: the block has odd length. -/
  | malformedInput
  deriving DecidableEq, Repr

/-- `process(block, keys, mode)`: as many rounds as there are keys, then "`right ++ left`" (R88). -/
def process (block keys : List Byte) (mode : Mode) : Except ProcessError (List Byte) :=
  if block.length % 2 = 1 then .error .malformedInput
  else
    let h := (Halves.split block).afterRounds mode keys keys.length
    .ok (h.right ++ h.left)

/-- `encrypt(block, rounds=4) = process(block, generateKeys(rounds), FORWARD)` (R110). -/
def encryptFn (block : List Byte) (rounds : Nat := Config.roundsDefault) : Except ProcessError (List Byte) :=
  process block (generate rounds) .forward

/-- `decrypt(block, rounds=4) = process(block, generateKeys(rounds), INVERSE)` (R111). -/
def decryptFn (block : List Byte) (rounds : Nat := Config.roundsDefault) : Except ProcessError (List Byte) :=
  process block (generate rounds) .inverse

end Sys2Proof.Machine
end

