-- ==== Sys2Proof/Machine/Operands.lean ====
section
/-! DEFINITION. The operands of a command. None stands in the command byte but the mode; all are computed by the engine
from registers (R60, R64, R101). -/

namespace Sys2Proof.Machine

/-- The half length `H = BLEN >> 1` (R17, R64). -/
def Block.half (b : Block) : Nat := b.blen.toNat / 2

/-- The parity `BLEN[0]`: an odd block length (R64, R120). -/
def Block.lengthOdd (b : Block) : Bool := b.blen.getLsbD 0

/-- The key index of the round about to execute (R86, R92); read only while `RND < KLEN`. -/
def Block.keyIndex (b : Block) : Nat := kidx b.mode b.klen.toNat b.rnd.toNat

/-- The key the next KGEN step writes, `((KI + 1) * 42) mod 256` (R77). -/
def Block.nextKey (b : Block) : Byte := keyByte b.ki.toNat

/-- `H` is at most the number of cells of a half (R17). -/
theorem Block.half_le (b : Block) : b.half ≤ Config.halfCells := by
  have := b.blen.isLt
  simp only [Block.half, Config.halfCells]
  omega

/-- The key index of a round of a process is inside the key store (R86, R92). -/
theorem Block.keyIndex_lt {b : Block} (h : b.rnd.toNat < b.klen.toNat) : b.keyIndex < Config.keyCells := by
  have := b.klen.isLt
  simp only [Block.keyIndex, kidx, Config.keyCells]
  split <;> omega

/-- The key cell a KGEN step writes is inside the key store (R24, R77). -/
theorem Block.ki_lt {b : Block} (h : b.ki.toNat < b.rounds.toNat) : b.ki.toNat < Config.keyCells := by
  have := b.rounds.isLt
  simp only [Config.keyCells]
  omega

end Sys2Proof.Machine
end

