-- ==== Sys2Proof/Machine/Ops.lean ====
section
/-! DEFINITION. The named operations over the state: the address map, the host's read and write, the acceptance of each
command, the one exception, and the reset event. -/

namespace Sys2Proof.Machine

/-- An array with its cells below `H` replaced, all at once; the other cells keep their bytes (R7 `for all j`). -/
def fillBelow {n : Nat} (H : Nat) (v : Vector Byte n) (f : (j : Nat) → j < H → Byte) : Vector Byte n :=
  Vector.ofFn fun j : Fin n => if h : j.val < H then f j.val h else v[j.val]

/-- The control locations, addresses 0x000 to 0x007 (R41). -/
def controlLocation (n : Nat) : Location :=
  match n with
  | 0x000 => .cmd
  | 0x001 => .status
  | 0x002 => .rounds
  | 0x003 => .klen
  | 0x004 => .blen
  | 0x005 => .rnd
  | 0x006 => .phase
  | 0x007 => .ki
  | _ => .reserved

/-- The cell of an array of `k` cells from address `base` on that address `n` names, where it names one. -/
def cellAt (base k n : Nat) : Option (Fin k) :=
  if h : base ≤ n ∧ n - base < k then some ⟨n - base, h.2⟩ else none

/-- The address map (R41); every address it does not list is reserved (R44). -/
def locate (a : Addr) : Location :=
  match cellAt Config.keyBase Config.keyCells a.toNat, cellAt Config.dinBase Config.dbufCells a.toNat,
      cellAt Config.doutBase Config.dbufCells a.toNat, cellAt Config.leftBase Config.halfCells a.toNat,
      cellAt Config.rightBase Config.halfCells a.toNat with
  | some n, _, _, _, _ => .key n
  | none, some n, _, _, _ => .din n
  | none, none, some n, _, _ => .dout n
  | none, none, none, some n, _ => .left n
  | none, none, none, none, some n => .right n
  | none, none, none, none, none => controlLocation a.toNat

/-- What a read of a location gives: the current value of the register or cell; `CMD` and a reserved address read as 0x00
(R42). -/
def Block.valueAt (b : Block) : Location → Byte
  | .cmd => 0x00#8
  | .status => b.statusByte
  | .rounds => b.rounds
  | .klen => b.klen
  | .blen => b.blen
  | .rnd => b.rnd
  | .phase => b.phaseByte
  | .ki => b.ki
  | .key n => b.key[n]
  | .din n => b.din[n]
  | .dout n => b.dout[n]
  | .left n => b.left[n]
  | .right n => b.right[n]
  | .reserved => 0x00#8

/-- `MemRead(addr, 1)` (R42). -/
def Block.hostRead (b : Block) (a : Addr) : Byte := b.valueAt (locate a)

/-- The acceptance of GENKEYS (R62, R76); `PHASE.M` stays as it was. -/
def Block.acceptGenkeys (b : Block) : Block :=
  { b.acceptFlags with chain := false, ki := 0#8, phase := .kgen }

/-- The acceptance of PROCESS.FWD and PROCESS.INV (R62, R89, R90). -/
def Block.acceptProcess (b : Block) (m : Mode) : Block :=
  { b.acceptFlags with chain := false, mode := m, phase := .load }

/-- The acceptance of ENCRYPT and DECRYPT (R62, R110, R111). -/
def Block.acceptCrypt (b : Block) (m : Mode) : Block :=
  { b.acceptFlags with chain := true, mode := m, ki := 0#8, phase := .kgen }

/-- A change the host asks for: "while `BUSY = 1` every write is dropped" (R43, R62, R144). -/
def Block.whenIdle (f : Block → Block) (b : Block) : Block := if b.busy then b else f b

/-- The command write of value `v` (R62): the accepted command's change; nothing for NOP (R112), for a reserved byte (R63)
and while busy. -/
def Block.commandWrite (v : Byte) : Block → Block :=
  Block.whenIdle fun b =>
    if v = 0x02#8 then b.acceptGenkeys
    else if v = 0x04#8 then b.acceptProcess .forward
    else if v = 0x05#8 then b.acceptProcess .inverse
    else if v = 0x06#8 then b.acceptCrypt .forward
    else if v = 0x07#8 then b.acceptCrypt .inverse
    else b

/-- What a write to a location does to an idle block: a command write at `CMD`; an assignment at a RW address; nothing at a
RO or reserved address (R43, R44). -/
def Block.writeAt (b : Block) (v : Byte) : Location → Block
  | .cmd => b.commandWrite v
  | .rounds => { b with rounds := v }
  | .klen => { b with klen := v }
  | .blen => { b with blen := v }
  | .key n => { b with key := b.key.set n v }
  | .din n => { b with din := b.din.set n v }
  | .status => b
  | .rnd => b
  | .phase => b
  | .ki => b
  | .dout _ => b
  | .left _ => b
  | .right _ => b
  | .reserved => b

/-- `MemWrite(addr, 1, v)` (R43): dropped while busy. -/
def Block.hostWrite (a : Addr) (v : Byte) : Block → Block := Block.whenIdle fun b => b.writeAt v (locate a)

/-- TAKING THE EXCEPTION, `raise MalformedInput` (R124): "No state is saved anywhere", "control goes nowhere but IDLE".
There is no return from it (R125): the acceptance of the next command (`acceptFlags`) clears `ERR`. -/
def Block.raiseMalformedInput (b : Block) : Block :=
  { b with err := true, done := false, busy := false, phase := .idle }

/-- The reset event (R140): the control registers take their reset values (R27), the cells of the five arrays are not
changed, whatever the state (R142). -/
def Block.resetEvent (b : Block) : Block :=
  { b with
    rounds := BitVec.ofNat 8 Config.roundsDefault, klen := 0#8, blen := 0#8, rnd := 0#8, ki := 0#8
    phase := .idle, mode := .forward, chain := false
    busy := false, done := false, err := false }

/-- A change of the block alone. -/
def State.onBlock (f : Block → Block) (s : State) : State := { s with block := f s.block }

/-- A read by the host: the byte read is delivered on `rdata`; "A read never changes any state" of the block (R42). -/
def State.read (a : Addr) (s : State) : State := { s with rdata := s.block.hostRead a :: s.rdata }

end Sys2Proof.Machine
end

