-- ==== Sys2Proof/Machine/Engine.lean ====
section
/-! DEFINITION. The engine: one state-machine step for each value of `PHASE.STATE` (R5, R102). In each step every right-hand
side is read from the state before the step (R7). -/

namespace Sys2Proof.Machine

/-- The KGEN step (R77): one key, or the exit to LOAD (`CH = 1`) or to IDLE. -/
def Block.kgenStep (b : Block) : Block :=
  if h : b.ki.toNat < b.rounds.toNat then
    { b with key := b.key.set b.ki.toNat b.nextKey (Block.ki_lt h), ki := b.ki + 1#8 }
  else if b.chain then { b with klen := b.rounds, phase := .load }
  else { b with klen := b.rounds }.endNormally

/-- The LOAD step (R91): the length check, then the split. -/
def Block.loadStep (b : Block) : Block :=
  if b.lengthOdd then b.raiseMalformedInput
  else
    { b with
      left := fillBelow b.half b.left fun j hj =>
        b.din[j]'(by have := b.half_le; simp only [Config.halfCells, Config.dbufCells] at *; omega)
      right := fillBelow b.half b.right fun j hj =>
        b.din[b.half + j]'(by have := b.half_le; simp only [Config.halfCells, Config.dbufCells] at *; omega)
      rnd := 0#8
      phase := .round }

/-- The ROUND step (R92): one whole round on the halves of before the step, or the loop exit. -/
def Block.roundStep (b : Block) : Block :=
  if h : b.rnd.toNat < b.klen.toNat then
    let k := b.key[b.keyIndex]'(Block.keyIndex_lt h)
    { b with
      left := fillBelow b.half b.left fun j hj => b.right[j]'(Nat.lt_of_lt_of_le hj b.half_le)
      right := fillBelow b.half b.right fun j hj =>
        b.left[j]'(Nat.lt_of_lt_of_le hj b.half_le) ^^^
          roundFunction (b.right[j]'(Nat.lt_of_lt_of_le hj b.half_le)) k
      rnd := b.rnd + 1#8 }
  else { b with phase := .store }

/-- The STORE step (R93): right half first, then left half; the command ends. -/
def Block.storeStep (b : Block) : Block :=
  { b with
    dout := fillBelow (2 * b.half) b.dout fun j hj =>
      if h : j < b.half then b.right[j]'(Nat.lt_of_lt_of_le h b.half_le)
      else b.left[j - b.half]'(by have := b.half_le; omega) }.endNormally

/-- One engine step: "has a step exactly when `STATUS.BUSY = 1`" (R5), the one rule for `PHASE.STATE` (R150). `BUSY = 1` in IDLE, which no run
reaches (R26), has none (DEDUCED, safe; assumption log 8). -/
def Block.engineStep (b : Block) : Block :=
  if b.busy then
    match b.phase with
    | .idle => b
    | .kgen => b.kgenStep
    | .load => b.loadStep
    | .round => b.roundStep
    | .store => b.storeStep
  else b

end Sys2Proof.Machine
end

