-- ==== Sys2Proof/Machine/Agents.lean ====
section
/-! DEFINITION. The two agents and the reset event as turns of one total order (R5, R50): which turn is next, and what an
engine turn, a reset turn and the host's own lines do to the state around `exec`. -/

namespace Sys2Proof.Machine

/-- Whose turn it is: the head of the laid-down interleaving. Where none is laid down the engine steps while it has a step
and the host goes on otherwise, so a running command always comes to its end (R150; DESIGN CHOICE, assumption log 3). -/
def State.nextTurn (s : State) : Turn :=
  match s.turns with
  | t :: _ => t
  | [] => if s.block.busy then .engine else .host

/-- The state once its turn is taken up. -/
def State.dropTurn (s : State) : State := { s with turns := s.turns.tail }

/-- An engine turn: one engine step, none while `BUSY = 0` (R150). -/
def State.engineTurn (s : State) : State := s.onBlock Block.engineStep

/-- A reset turn (R140): the host's program and the order of turns are not the block's, and go on. -/
def State.resetTurn (s : State) : State := s.onBlock Block.resetEvent

/-- The address of `STATUS` (R41). -/
abbrev statusAddr : Addr := 0x001#11

/-- The address of `CMD` (R41). -/
abbrev cmdAddr : Addr := 0x000#11

/-- One transaction of `WAIT` (R116): `RD STATUS`; the line is done when the value read has `BUSY = 0`, else it is
repeated. -/
def State.waitTurn (rest : List HostLine) (s : State) : State :=
  let s' := s.read statusAddr
  if (s.block.hostRead statusAddr).getLsbD 0 then s' else { s' with script := rest }

/-- What the ports make of a word that is none of the table's instructions: a reserved command byte is a write of it to
`CMD`, which changes nothing (R63); "on the ports, `wdata` is ignored when `we = 0`", so a read word with data reads
(R66). DEDUCED, assumption log 5. -/
def State.unlistedWord (e : DecodeError) (s : State) : State :=
  match e with
  | .reservedCommand v => s.onBlock (Block.hostWrite cmdAddr v)
  | .readWithData a _ => s.read a

/-- The host's next transaction placed before the rest of its program, with the next turn the host's. -/
def State.presentWord (h : HostWord) (s : State) : State :=
  { s with script := .word h :: s.script, turns := .host :: s.turns }

end Sys2Proof.Machine
end

