-- ==== Sys2Proof/Machine/Access.lean ====
section
/-! DEFINITION. The meanings of the two bus transactions (R114, R115). -/

namespace Sys2Proof.Machine

/-- `WR target, byte` (R114). -/
def execWr (a : Addr) (v : Byte) (s : State) : Host.Outcome State Fault Refusal := .next (s.onBlock (Block.hostWrite a v))

/-- `RD target` (R115). -/
def execRd (a : Addr) (s : State) : Host.Outcome State Fault Refusal := .next (s.read a)

end Sys2Proof.Machine
end

