-- ==== Sys2Proof/Machine/Commands.lean ====
section
/-! DEFINITION. The meanings of the six commands. A command is a host write to `CMD`; its meaning is the host step that
accepts it (R62), after which the engine steps of Engine.lean carry it out. A command written while busy is dropped. -/

namespace Sys2Proof.Machine

/-- `NOP` (R112): "none in any state". -/
def execNop (s : State) : Host.Outcome State Fault Refusal := .next s

/-- `GENKEYS` (R76). -/
def execGenkeys (s : State) : Host.Outcome State Fault Refusal :=
  .next (s.onBlock (Block.whenIdle fun b => b.acceptGenkeys))

/-- `PROCESS.FWD` (R89). -/
def execProcessFwd (s : State) : Host.Outcome State Fault Refusal :=
  .next (s.onBlock (Block.whenIdle fun b => b.acceptProcess .forward))

/-- `PROCESS.INV` (R90). -/
def execProcessInv (s : State) : Host.Outcome State Fault Refusal :=
  .next (s.onBlock (Block.whenIdle fun b => b.acceptProcess .inverse))

/-- `ENCRYPT` (R110). -/
def execEncrypt (s : State) : Host.Outcome State Fault Refusal :=
  .next (s.onBlock (Block.whenIdle fun b => b.acceptCrypt .forward))

/-- `DECRYPT` (R111). -/
def execDecrypt (s : State) : Host.Outcome State Fault Refusal :=
  .next (s.onBlock (Block.whenIdle fun b => b.acceptCrypt .inverse))

end Sys2Proof.Machine
end

