-- ==== Sys2Proof/Machine/Dispatch.lean ====
section
/-! DEFINITION. One arm for each instruction. -/

namespace Sys2Proof.Machine

def exec (i : Instr) (s : State) : Host.Outcome State Fault Refusal :=
  match i with
  | .nop => Sys2Proof.Machine.execNop s
  | .genkeys => Sys2Proof.Machine.execGenkeys s
  | .processFwd => Sys2Proof.Machine.execProcessFwd s
  | .processInv => Sys2Proof.Machine.execProcessInv s
  | .encrypt => Sys2Proof.Machine.execEncrypt s
  | .decrypt => Sys2Proof.Machine.execDecrypt s
  | .wr a v => Sys2Proof.Machine.execWr a v s
  | .rd a => Sys2Proof.Machine.execRd a s

end Sys2Proof.Machine
end

