-- ==== Sys2Proof/Machine/Step.lean ====
section
/-! DEFINITION. One step of the machine: the next turn of the total order of host steps, engine steps and reset events
(R5, R50). It calls, and adds no effect of its own. -/

namespace Sys2Proof.Machine

/-- A host step: the next line of the host's program, one transaction (R5, R67); with no line left the host presents
nothing. -/
def State.hostTurn (s : State) : Host.Outcome State Fault Refusal :=
  match s.script with
  | [] => .next s
  | .wait :: rest => .next (s.waitTurn rest)
  | .word w :: rest =>
    match decode w with
    | .ok i => exec i { s with script := rest }
    | .error e => .next (State.unlistedWord e { s with script := rest })

/-- One step: the agent whose turn it is takes one atomic step (R5). -/
def step (s : State) : Host.Outcome State Fault Refusal :=
  match s.nextTurn with
  | .host => s.dropTurn.hostTurn
  | .engine => .next s.dropTurn.engineTurn
  | .reset => .next s.dropTurn.resetTurn

/-- `s` with the opcode-table word `w` of `nbits` bits as the host's next transaction and the next turn the host's
(DESIGN CHOICE, assumption log 2: how a program comes to run). -/
def State.withFetchWord (s : State) (nbits w : Nat) : State :=
  match HostWord.ofTable nbits w with
  | some h => s.presentWord h
  | none => s

end Sys2Proof.Machine
end

