-- ==== Sys2Proof/Safety.lean ====
section
/-! DEFINITION. What a run is, and what the spec promises of every state a run reaches (R26). -/

namespace Sys2Proof.Machine

/-- `k` steps, stopping at the first stop. -/
def run : Nat → State → Host.Outcome State Fault Refusal
  | 0, s => .next s
  | k + 1, s =>
    match step s with
    | .next s' => run k s'
    | .fault r => .fault r
    | .refused r => .refused r

/-- The invariants of R26 over the block's state, (a) to (f); (c) holds by the type of `PHASE.STATE`. -/
structure Block.Inv (b : Block) : Prop where
  /-- (a) `BUSY = 1` if and only if `PHASE.STATE` is not IDLE. -/
  busy_iff : b.busy = true ↔ b.phase ≠ .idle
  /-- (b) at most one of `BUSY`, `DONE`, `ERR` is 1. -/
  busy_done : ¬(b.busy = true ∧ b.done = true)
  busy_err : ¬(b.busy = true ∧ b.err = true)
  done_err : ¬(b.done = true ∧ b.err = true)
  /-- (d) in state KGEN, `KI <= ROUNDS`. -/
  kgen_ki : b.phase = .kgen → b.ki.toNat ≤ b.rounds.toNat
  /-- (e) in state ROUND, `RND <= KLEN`. -/
  round_rnd : b.phase = .round → b.rnd.toNat ≤ b.klen.toNat
  /-- (e) in state STORE, `RND = KLEN`. -/
  store_rnd : b.phase = .store → b.rnd = b.klen
  /-- (f) past the length check, `BLEN` is even. -/
  even_length : b.phase = .round ∨ b.phase = .store → b.lengthOdd = false

/-- The engine steps a block still has before it, were it left alone: the count of R149, read from where the command
stands. -/
def Block.stepsLeft (b : Block) : Nat :=
  match b.phase with
  | .idle => 0
  | .kgen =>
    b.rounds.toNat - b.ki.toNat + 1 +
      (if b.chain then (if b.lengthOdd then 1 else b.rounds.toNat + 3) else 0)
  | .load => if b.lengthOdd then 1 else b.klen.toNat + 3
  | .round => b.klen.toNat - b.rnd.toNat + 2
  | .store => 1

/-- The addresses the host may read and write (R41 "RW"). -/
def RwAddr (a : Addr) : Prop :=
  a.toNat = 0x002 ∨ a.toNat = 0x003 ∨ a.toNat = 0x004 ∨
    (0x100 ≤ a.toNat ∧ a.toNat ≤ 0x1FE) ∨ (0x200 ≤ a.toNat ∧ a.toNat ≤ 0x2FD)

/-- The addresses the host may only read (R41 "RO"). -/
def RoAddr (a : Addr) : Prop :=
  a.toNat = 0x001 ∨ a.toNat = 0x005 ∨ a.toNat = 0x006 ∨ a.toNat = 0x007 ∨
    (0x300 ≤ a.toNat ∧ a.toNat ≤ 0x3FD) ∨ (0x400 ≤ a.toNat ∧ a.toNat ≤ 0x47E) ∨
    (0x480 ≤ a.toNat ∧ a.toNat ≤ 0x4FE)

/-- The reserved addresses, as R44 lists them. -/
def ReservedAddr (a : Addr) : Prop :=
  (0x008 ≤ a.toNat ∧ a.toNat ≤ 0x0FF) ∨ a.toNat = 0x1FF ∨ a.toNat = 0x2FE ∨ a.toNat = 0x2FF ∨
    a.toNat = 0x3FE ∨ a.toNat = 0x3FF ∨ a.toNat = 0x47F ∨ a.toNat = 0x4FF ∨ 0x500 ≤ a.toNat

/-- A stretch of turns with exactly `n` engine steps and no reset, any host steps between them, and an engine step last:
"after exactly `n` engine steps, whatever host steps are interleaved" (R78, R94). -/
def EngineRun (n : Nat) (ts : List Turn) : Prop :=
  .reset ∉ ts ∧ ts.count .engine = n ∧ ts.getLast? = some .engine

/-- The first `n` bytes of an array, as the sequence the spec writes `ARR[0..n)` (R6). -/
def firstCells {k : Nat} (v : Vector Byte k) (n : Nat) : List Byte := v.toList.take n

/-- The bytes of an array from index `n` on. -/
def cellsFrom {k : Nat} (v : Vector Byte k) (n : Nat) : List Byte := v.toList.drop n

end Sys2Proof.Machine
end

