-- ==== Sys2Proof/Machine/Script.lean ====
section
/-! DEFINITION. Host scripts (R67): the targets a line may name, the lines and pseudo-instructions, and their expansion
into the transactions the host presents. -/

namespace Sys2Proof.Machine

/-- `<target>`: "a register name, ARR[n], or a numeric address" (R67). -/
inductive Target where
  | cmd
  | status
  | rounds
  | klen
  | blen
  | rnd
  | phase
  | ki
  | key (n : Nat)
  | din (n : Nat)
  | dout (n : Nat)
  | left (n : Nat)
  | right (n : Nat)
  | numeric (addr : Nat)
  deriving DecidableEq, Repr

/-- The number of the address a target names, resolved by the map (R41, R67). -/
def Target.number : Target → Nat
  | .cmd => 0x000
  | .status => 0x001
  | .rounds => 0x002
  | .klen => 0x003
  | .blen => 0x004
  | .rnd => 0x005
  | .phase => 0x006
  | .ki => 0x007
  | .key n => Config.keyBase + n
  | .din n => Config.dinBase + n
  | .dout n => Config.doutBase + n
  | .left n => Config.leftBase + n
  | .right n => Config.rightBase + n
  | .numeric a => a

/-- The bus address of a target; every well-formed target's number fits the 11 pins (the others: assumption
log 10). -/
def Target.addr (t : Target) : Addr := BitVec.ofNat 11 t.number

/-- A line of a host script (R67). -/
inductive ScriptLine where
  /-- `WR <target>, <byte>`. -/
  | wr (t : Target) (v : Byte)
  /-- `RD <target>`. -/
  | rd (t : Target)
  /-- `CMD <mnemonic>`, of one of the six commands. -/
  | cmd (i : Instr)
  /-- `WAIT`. -/
  | wait
  /-- `LOADBLK b0 b1 ... b(n-1)`. -/
  | loadBlk (bytes : List Byte)
  /-- `LOADKEYS k0 ... k(m-1)`. -/
  | loadKeys (bytes : List Byte)
  /-- `READBLK n`. -/
  | readBlk (n : Nat)
  deriving DecidableEq, Repr

/-- One transaction as a line of the host's program, by its listing word. -/
def line (i : Instr) : HostLine := .word (encode i)

/-- The writes of a sequence of bytes to the cells of an array, ascending (R45, R67). -/
def writeCells (target : Nat → Target) (bytes : List Byte) : List HostLine :=
  bytes.zipIdx.map fun p => line (.wr (target p.2).addr p.1)

/-- "`CMD <mnemonic>` = `WR CMD, <opcode of the mnemonic>`" (R67): the command byte written to `CMD`; a transaction, which
is no command, stands for itself. -/
def commandLine (i : Instr) : HostLine :=
  match encode i with
  | .cmd8 v => line (.wr Target.cmd.addr v)
  | .bus20 w => .word (.bus20 w)

/-- The expansion of a line (R67). -/
def ScriptLine.expand : ScriptLine → List HostLine
  | .wr t v => [line (.wr t.addr v)]
  | .rd t => [line (.rd t.addr)]
  | .cmd i => [commandLine i]
  | .wait => [.wait]
  | .loadBlk bytes => line (.wr Target.blen.addr (BitVec.ofNat 8 bytes.length)) :: writeCells .din bytes
  | .loadKeys bytes => line (.wr Target.klen.addr (BitVec.ofNat 8 bytes.length)) :: writeCells .key bytes
  | .readBlk n => (List.range n).map fun k => line (.rd (Target.dout k).addr)

/-- The transactions of a whole script, in order. -/
def expandScript (lines : List ScriptLine) : List HostLine := lines.flatMap ScriptLine.expand

end Sys2Proof.Machine
end

