-- ==== Sys2Proof/WellFormed.lean ====
section
/-! DEFINITION. The checks on what is written down: words of a listing (R63, R66), targets and lines of a script (R41, R67).
An `Instr` needs no check of its own: its fields are the 11-bit address and the byte of a transaction, and every value of
each is legal (R43, R47). -/

namespace Sys2Proof

/-- A command byte that is one of the six commands: `ZERO` is 0 and `MODE` is 0 where `OP` is 0 or 1 (R60, R61, R63). -/
def commandListed (v : Byte) : Bool :=
  v.extractLsb' 3 5 == 0#5 && (v.getLsbD 2 || !v.getLsbD 0)

/-- A word the spec lists: a command byte that is not reserved (R63), a transaction whose `WDATA` is 0x00 in a read (R66). -/
def HostWord.wellFormed : HostWord → Bool
  | .cmd8 v => commandListed v
  | .bus20 w => busWe w || busData w == 0#8

/-- The instructions that are commands, those a `CMD` line may name (R67). -/
def Instr.isCommand : Instr → Bool
  | .nop => true
  | .genkeys => true
  | .processFwd => true
  | .processInv => true
  | .encrypt => true
  | .decrypt => true
  | .wr _ _ => false
  | .rd _ => false

namespace Machine

/-- A target names a register, a cell of its array or an 11-bit address (R41, R67). -/
def Target.wellFormed : Target → Bool
  | .cmd => true
  | .status => true
  | .rounds => true
  | .klen => true
  | .blen => true
  | .rnd => true
  | .phase => true
  | .ki => true
  | .key n => decide (n < Config.keyCells)
  | .din n => decide (n < Config.dbufCells)
  | .dout n => decide (n < Config.dbufCells)
  | .left n => decide (n < Config.halfCells)
  | .right n => decide (n < Config.halfCells)
  | .numeric a => decide (a < 2 ^ 11)

/-- A line of a script keeps the bounds of R67: `LOADBLK` of at most 254 bytes, `LOADKEYS` of at most 255, `READBLK` of at
most the cells of `DOUT`. -/
def ScriptLine.wellFormed : ScriptLine → Bool
  | .wr t _ => t.wellFormed
  | .rd t => t.wellFormed
  | .cmd i => i.isCommand
  | .wait => true
  | .loadBlk bytes => decide (bytes.length ≤ Config.dbufCells)
  | .loadKeys bytes => decide (bytes.length ≤ Config.keyCells)
  | .readBlk n => decide (n ≤ Config.dbufCells)

end Machine

end Sys2Proof
end

