-- ==== Sys2Proof/Certificates/Slice0/Obligations.lean ====
section
/-! DEFINITION. The statements for the provers. Each docstring says which rule of spec/ its statement formalises. -/

open Sys2Proof Sys2Proof.Machine

/-! ## Encoding -/

/-- R60, R61, R66: no bit of an encoding is dropped; decoding an instruction's word gives the instruction, for every address
and byte. -/
def Obligations.DecodeOfEncodeIsTheInstruction : Prop := ∀ i : Instr, decode (encode i) = .ok i

/-- R61, R66: each word has one meaning; an instruction that a word decodes to encodes to that word. -/
def Obligations.EncodeOfDecodeIsTheWord : Prop := ∀ (w : HostWord) (i : Instr), decode w = .ok i → encode i = w

/-- R60, R63, R66: the decoder accepts exactly the listed words: command bytes with `ZERO = 0` and `MODE = 0` where `OP` is
0 or 1, write words, and read words with `WDATA = 0`. -/
def Obligations.DecodeAcceptsExactlyListedWords : Prop :=
  ∀ w : HostWord, (∃ i, decode w = .ok i) ↔ w.wellFormed = true

/-- R61: the opcode map, all 256 values of the command byte. -/
def Obligations.OpcodeMapOfCommandByte : Prop :=
  decode (.cmd8 0x00#8) = .ok .nop ∧
  decode (.cmd8 0x02#8) = .ok .genkeys ∧
  decode (.cmd8 0x04#8) = .ok .processFwd ∧
  decode (.cmd8 0x05#8) = .ok .processInv ∧
  decode (.cmd8 0x06#8) = .ok .encrypt ∧
  decode (.cmd8 0x07#8) = .ok .decrypt ∧
  ∀ v : Byte, v.toNat = 0x01 ∨ v.toNat = 0x03 ∨ 0x08 ≤ v.toNat → decode (.cmd8 v) = .error (.reservedCommand v)

/-- R66, with the words of spec/95_test_vectors.md V42: words written out from the format decode to the transactions they
stand for. -/
def Obligations.SpecWordsDecode : Prop :=
  decode (.bus20 0x80204#20) = .ok (.wr 0x002#11 0x04#8) ∧
  decode (.bus20 0x80002#20) = .ok (.wr 0x000#11 0x02#8) ∧
  decode (.bus20 0x90180#20) = .ok (.wr 0x101#11 0x80#8) ∧
  decode (.bus20 0xA0721#20) = .ok (.wr 0x207#11 0x21#8) ∧
  decode (.bus20 0x00100#20) = .ok (.rd 0x001#11) ∧
  decode (.bus20 0x30000#20) = .ok (.rd 0x300#11) ∧
  decode (.bus20 0x48000#20) = .ok (.rd 0x480#11) ∧
  decode (.bus20 0x9FED6#20) = .ok (.wr 0x1FE#11 0xD6#8)

/-! ## Steps -/

/-- R5, R67: on the host's turn the next word of its program, when it decodes to `i`, runs `exec i`, the word and the turn
taken off. The second way to be the host's turn, none laid down and the block idle, is the model's choice (assumption
log 3). -/
def Obligations.StepRunsDecodedWord : Prop :=
  ∀ (s : State) (w : HostWord) (rest : List HostLine) (i : Instr),
    s.turns.head? = some .host ∨ (s.turns = [] ∧ s.block.busy = false) →
    s.script = .word w :: rest → decode w = .ok i →
    step s = exec i { s with script := rest, turns := s.turns.tail }

/-- The model's choice of how a program is presented (assumption log 2): the word that `withFetchWord` places is what the very next
step runs, on exactly the state it was placed in. -/
def Obligations.PresentedWordRunsNext : Prop :=
  ∀ (s : State) (nbits w : Nat) (i : Instr),
    decodeTableWord nbits w = some i → step (s.withFetchWord nbits w) = exec i s

/-- R5, R150, R140: an engine turn takes one engine step, a reset turn is the reset event. The MODEL'S CHOICES: that neither
turn touches the host's program and the bytes read, so that a reset leaves both, and that a host turn with no line left only
passes the turn (assumption log 2); that the turns are laid down as a list, and that a running command goes on where none is
(assumption log 3). -/
def Obligations.StepTakesEngineAndResetTurns : Prop :=
  ∀ (s : State) (ts : List Turn),
    (s.turns = .engine :: ts → step s = .next { s with block := s.block.engineStep, turns := ts }) ∧
    (s.turns = .reset :: ts → step s = .next { s with block := s.block.resetEvent, turns := ts }) ∧
    (s.turns = [] → s.block.busy = true → step s = .next { s with block := s.block.engineStep }) ∧
    (s.turns = .host :: ts → s.script = [] → step s = .next { s with turns := ts })

/-- R63, R66: a reserved command byte changes nothing; at the ports `wdata` is ignored when `we = 0`. That a word the table does
not list, above all a read word with `WDATA` not 0 ("not a transaction this spec lists"), is still carried out as the ports
say is the MODEL'S INFERENCE (assumption log 5, DEDUCED). The turn and the line taken off are the model's choice (assumption
log 2 and 3). -/
def Obligations.UnlistedWordsActAsThePorts : Prop :=
  ∀ (s : State) (rest : List HostLine) (ts : List Turn), s.turns = .host :: ts →
    (∀ v : Byte, (v.toNat = 0x01 ∨ v.toNat = 0x03 ∨ 0x08 ≤ v.toNat) → s.script = .word (.cmd8 v) :: rest →
      step s = .next { s with script := rest, turns := ts }) ∧
    (∀ w : BitVec 20, w.toNat < 0x80000 → s.script = .word (.bus20 w) :: rest →
      step s = exec (.rd (BitVec.ofNat 11 (w.toNat / 0x100))) { s with script := rest, turns := ts })

/-- R67, R116: one `RD STATUS` of `WAIT`; the line stays until the value read has `BUSY = 0`, and where the block meets R26 the
last value read is 0x00, 0x02 or 0x04. -/
def Obligations.WaitReadsStatusUntilIdle : Prop :=
  ∀ (s : State) (rest : List HostLine) (ts : List Turn),
    s.turns = .host :: ts → s.script = .wait :: rest →
    step s = .next { s with
      rdata := s.block.statusByte :: s.rdata
      script := if s.block.busy then s.script else rest
      turns := ts } ∧
    (s.block.Inv → s.block.busy = false →
      s.block.statusByte = 0x00#8 ∨ s.block.statusByte = 0x02#8 ∨ s.block.statusByte = 0x04#8)

/-- spec/93_implementation_defined.md section 2: nothing is a fault and nothing is stuck; every instruction and every step
answers a next state, and an instruction leaves the host's program and the order of turns alone. -/
def Obligations.NothingStops : Prop :=
  (∀ s : State, ∃ t, step s = .next t) ∧
  (∀ (i : Instr) (s : State), ∃ t, exec i s = .next t ∧ t.script = s.script ∧ t.turns = s.turns)

/-! ## Reset -/

/-- R140: the reset event, in any state: the control registers take the values of R27, every cell keeps its byte, and
nothing runs after it. -/
def Obligations.ResetEventSetsRegistersKeepsCells : Prop :=
  ∀ (s : State) (ts : List Turn), s.turns = .reset :: ts →
    ∃ t, step s = .next t ∧
      t.block.statusByte = 0x00#8 ∧ t.block.phaseByte = 0x00#8 ∧ t.block.phase = .idle ∧
      t.block.rounds = 4#8 ∧ t.block.klen = 0#8 ∧ t.block.blen = 0#8 ∧ t.block.rnd = 0#8 ∧ t.block.ki = 0#8 ∧
      t.block.key = s.block.key ∧ t.block.din = s.block.din ∧ t.block.dout = s.block.dout ∧
      t.block.left = s.block.left ∧ t.block.right = s.block.right ∧
      t.block.engineStep = t.block

/-- R27: what the host reads of the control registers after reset (spec/95_test_vectors.md V45). Nothing is said of the cells,
which are free values (assumption log 1). -/
def Obligations.ResetStateRegisters : Prop :=
  State.reset.block.hostRead 0x001#11 = 0x00#8 ∧
  State.reset.block.hostRead 0x002#11 = 0x04#8 ∧
  State.reset.block.hostRead 0x003#11 = 0x00#8 ∧
  State.reset.block.hostRead 0x004#11 = 0x00#8 ∧
  State.reset.block.hostRead 0x005#11 = 0x00#8 ∧
  State.reset.block.hostRead 0x006#11 = 0x00#8 ∧
  State.reset.block.hostRead 0x007#11 = 0x00#8 ∧
  State.reset.block.phase = .idle ∧ State.reset.block.mode = .forward ∧ State.reset.block.chain = false

/-! ## Host reads and writes -/

/-- R42: a read of a control register, of `CMD` or of a reserved address: the value read is the register's, the packed fields of
R18 and R20, or 0x00, and nothing of the state changes but the delivery of that byte. -/
def Obligations.RdReturnsControlRegisters : Prop :=
  ∀ s : State,
    (∃ v : Byte, exec (.rd 0x001#11) s = .next { s with rdata := v :: s.rdata } ∧
      v.toNat = s.block.busy.toNat + 2 * s.block.done.toNat + 4 * s.block.err.toNat) ∧
    (∃ v : Byte, exec (.rd 0x006#11) s = .next { s with rdata := v :: s.rdata } ∧
      v.toNat = s.block.phase.code.toNat + 8 * (modeBit s.block.mode).toNat + 16 * s.block.chain.toNat) ∧
    exec (.rd 0x002#11) s = .next { s with rdata := s.block.rounds :: s.rdata } ∧
    exec (.rd 0x003#11) s = .next { s with rdata := s.block.klen :: s.rdata } ∧
    exec (.rd 0x004#11) s = .next { s with rdata := s.block.blen :: s.rdata } ∧
    exec (.rd 0x005#11) s = .next { s with rdata := s.block.rnd :: s.rdata } ∧
    exec (.rd 0x007#11) s = .next { s with rdata := s.block.ki :: s.rdata } ∧
    exec (.rd 0x000#11) s = .next { s with rdata := 0x00#8 :: s.rdata } ∧
    ∀ a : Addr, ReservedAddr a → exec (.rd a) s = .next { s with rdata := 0x00#8 :: s.rdata }

/-- R41, R42, R45: a read of a cell: `ARR[n]` stands at its array's base plus `n`, for every cell of the five arrays. -/
def Obligations.RdReturnsCells : Prop :=
  ∀ s : State,
    (∀ n (h : n < 255), exec (.rd (BitVec.ofNat 11 (0x100 + n))) s = .next { s with rdata := s.block.key[n] :: s.rdata }) ∧
    (∀ n (h : n < 254), exec (.rd (BitVec.ofNat 11 (0x200 + n))) s = .next { s with rdata := s.block.din[n] :: s.rdata }) ∧
    (∀ n (h : n < 254), exec (.rd (BitVec.ofNat 11 (0x300 + n))) s = .next { s with rdata := s.block.dout[n] :: s.rdata }) ∧
    (∀ n (h : n < 127), exec (.rd (BitVec.ofNat 11 (0x400 + n))) s = .next { s with rdata := s.block.left[n] :: s.rdata }) ∧
    (∀ n (h : n < 127), exec (.rd (BitVec.ofNat 11 (0x480 + n))) s = .next { s with rdata := s.block.right[n] :: s.rdata })

/-- R43: a write, at every one of the 2048 addresses: dropped while busy, the command write at `CMD`, the assignment at a RW
address, nothing at a RO or reserved address. -/
def Obligations.WrFollowsTheWriteRule : Prop :=
  ∀ (s : State) (v : Byte),
    (s.block.busy = true → ∀ a, exec (.wr a v) s = .next s) ∧
    (s.block.busy = false →
      exec (.wr 0x000#11 v) s = .next { s with block := s.block.commandWrite v } ∧
      exec (.wr 0x002#11 v) s = .next { s with block := { s.block with rounds := v } } ∧
      exec (.wr 0x003#11 v) s = .next { s with block := { s.block with klen := v } } ∧
      exec (.wr 0x004#11 v) s = .next { s with block := { s.block with blen := v } } ∧
      (∀ n (h : n < 255), exec (.wr (BitVec.ofNat 11 (0x100 + n)) v) s =
        .next { s with block := { s.block with key := s.block.key.set n v } }) ∧
      (∀ n (h : n < 254), exec (.wr (BitVec.ofNat 11 (0x200 + n)) v) s =
        .next { s with block := { s.block with din := s.block.din.set n v } }) ∧
      (∀ a, RoAddr a ∨ ReservedAddr a → exec (.wr a v) s = .next s))

/-- R42, R43, R48: after a write to a RW address that address reads as the byte written, every other address of the whole
space reads as before, and writing it again changes nothing. -/
def Obligations.WrittenByteIsReadBackAndNoOtherChanges : Prop :=
  ∀ (s : State) (a : Addr) (v : Byte), s.block.busy = false → RwAddr a →
    ∃ t, exec (.wr a v) s = .next t ∧
      t.block.hostRead a = v ∧
      (∀ a', a' ≠ a → t.block.hostRead a' = s.block.hostRead a') ∧
      exec (.wr a v) t = .next t

/-! ## Commands -/

/-- R62, R63: the command write of every byte value: the table of acceptances, nothing for NOP and for a reserved value, nothing
while busy. -/
def Obligations.CommandWriteFollowsTheAcceptanceTable : Prop :=
  ∀ (s : State) (v : Byte),
    (s.block.busy = true → exec (.wr 0x000#11 v) s = .next s) ∧
    (s.block.busy = false →
      (v = 0x02#8 → exec (.wr 0x000#11 v) s = .next { s with block := { s.block with
        busy := true, done := false, err := false, chain := false, ki := 0#8, phase := .kgen } }) ∧
      (v = 0x04#8 → exec (.wr 0x000#11 v) s = .next { s with block := { s.block with
        busy := true, done := false, err := false, chain := false, mode := .forward, phase := .load } }) ∧
      (v = 0x05#8 → exec (.wr 0x000#11 v) s = .next { s with block := { s.block with
        busy := true, done := false, err := false, chain := false, mode := .inverse, phase := .load } }) ∧
      (v = 0x06#8 → exec (.wr 0x000#11 v) s = .next { s with block := { s.block with
        busy := true, done := false, err := false, chain := true, mode := .forward, ki := 0#8, phase := .kgen } }) ∧
      (v = 0x07#8 → exec (.wr 0x000#11 v) s = .next { s with block := { s.block with
        busy := true, done := false, err := false, chain := true, mode := .inverse, ki := 0#8, phase := .kgen } }) ∧
      (v.toNat = 0x00 ∨ v.toNat = 0x01 ∨ v.toNat = 0x03 ∨ 0x08 ≤ v.toNat → exec (.wr 0x000#11 v) s = .next s))

/-- R61, R67: `CMD <mnemonic>` is the write of its opcode: a command's meaning is the meaning of writing its byte to `CMD`, in
every state, and a byte that is no command changes nothing. -/
def Obligations.CommandIsTheWriteOfItsByte : Prop :=
  ∀ (s : State) (v : Byte),
    (∀ i, decode (.cmd8 v) = .ok i → exec (.wr 0x000#11 v) s = exec i s) ∧
    (∀ e, decode (.cmd8 v) = .error e → exec (.wr 0x000#11 v) s = .next s)

/-- R112: NOP has no effect in any state. -/
def Obligations.NopHasNoEffect : Prop := ∀ s : State, exec .nop s = .next s

/-- R62, R76: an idle block accepts GENKEYS; nothing but the registers shown changes, `PHASE.M` among those that stay. -/
def Obligations.GenkeysIsAccepted : Prop :=
  ∀ s : State, s.block.busy = false →
    exec .genkeys s = .next { s with block := { s.block with
      busy := true, done := false, err := false, chain := false, ki := 0#8, phase := .kgen } }

/-- R62, R89, R90: an idle block accepts PROCESS.FWD and PROCESS.INV; nothing but the registers shown changes. -/
def Obligations.ProcessIsAccepted : Prop :=
  ∀ s : State, s.block.busy = false →
    exec .processFwd s = .next { s with block := { s.block with
      busy := true, done := false, err := false, chain := false, mode := .forward, phase := .load } } ∧
    exec .processInv s = .next { s with block := { s.block with
      busy := true, done := false, err := false, chain := false, mode := .inverse, phase := .load } }

/-- R62, R110, R111: an idle block accepts ENCRYPT and DECRYPT; nothing but the registers shown changes. -/
def Obligations.CryptIsAccepted : Prop :=
  ∀ s : State, s.block.busy = false →
    exec .encrypt s = .next { s with block := { s.block with
      busy := true, done := false, err := false, chain := true, mode := .forward, ki := 0#8, phase := .kgen } } ∧
    exec .decrypt s = .next { s with block := { s.block with
      busy := true, done := false, err := false, chain := true, mode := .inverse, ki := 0#8, phase := .kgen } }

/-- R26 (g), R43, R144: while a command runs no host step changes the block, whatever its line: every write and command is
dropped without trace, and a read or a `WAIT` changes no register or cell. -/
def Obligations.HostStepsLeaveABusyBlockAlone : Prop :=
  ∀ s : State, s.block.busy = true →
    (∀ i : Instr, (∀ a, i ≠ .rd a) → exec i s = .next s) ∧
    (s.turns.head? = some .host → ∃ t, step s = .next t ∧ t.block = s.block)

/-! ## Engine steps -/

/-- R77: the KGEN step, one key or the exit, and the count of the steps of a key generation. -/
def Obligations.KgenStepFollowsItsRule : Prop :=
  ∀ b : Block, b.busy = true → b.phase = .kgen →
    (b.ki.toNat < b.rounds.toNat → ∃ hk : b.ki.toNat < 255,
      b.engineStep = { b with
        key := b.key.set b.ki.toNat (BitVec.ofNat 8 ((b.ki.toNat + 1) * 42 % 256)) hk
        ki := BitVec.ofNat 8 (b.ki.toNat + 1) } ∧ b.engineStep.ki.toNat = b.ki.toNat + 1) ∧
    (b.rounds.toNat ≤ b.ki.toNat → b.chain = true →
      b.engineStep = { b with klen := b.rounds, phase := .load }) ∧
    (b.rounds.toNat ≤ b.ki.toNat → b.chain = false →
      b.engineStep = { b with klen := b.rounds, phase := .idle, busy := false, done := true }) ∧
    (b.ki = 0#8 →
      (∀ n ≤ b.rounds.toNat, (Block.engineStep^[n] b).phase = .kgen) ∧
      (Block.engineStep^[b.rounds.toNat + 1] b).phase ≠ .kgen)

/-- R91, R124: the LOAD step: on an odd `BLEN` the abort, which changes three status bits and `PHASE.STATE` and nothing
else; on an even one the split. -/
def Obligations.LoadStepFollowsItsRule : Prop :=
  ∀ b : Block, b.busy = true → b.phase = .load →
    (b.blen.toNat % 2 = 1 →
      b.engineStep = { b with err := true, done := false, busy := false, phase := .idle }) ∧
    (b.blen.toNat % 2 = 0 →
      b.engineStep = { b with
        left := b.engineStep.left, right := b.engineStep.right, rnd := 0#8, phase := .round } ∧
      (∀ j, j < b.blen.toNat / 2 →
        b.engineStep.left[j]? = b.din[j]? ∧ b.engineStep.right[j]? = b.din[b.blen.toNat / 2 + j]?) ∧
      (∀ j, b.blen.toNat / 2 ≤ j → b.engineStep.left[j]? = b.left[j]? ∧ b.engineStep.right[j]? = b.right[j]?))

/-- R92: the ROUND step: one whole round on the halves of before the step, with the one key of `kidx`, or the loop
exit. -/
def Obligations.RoundStepFollowsItsRule : Prop :=
  ∀ b : Block, b.busy = true → b.phase = .round →
    (b.klen.toNat ≤ b.rnd.toNat → b.engineStep = { b with phase := .store }) ∧
    (∀ i, b.rnd.toNat < b.klen.toNat →
      i = (match b.mode with
        | .forward => b.rnd.toNat
        | .inverse => b.klen.toNat - 1 - b.rnd.toNat) →
      ∃ hi : i < 255,
        b.engineStep = { b with
          left := b.engineStep.left, right := b.engineStep.right, rnd := BitVec.ofNat 8 (b.rnd.toNat + 1) } ∧
        b.engineStep.rnd.toNat = b.rnd.toNat + 1 ∧
        ∀ j (hj : j < 127),
          b.engineStep.left[j] = (if j < b.blen.toNat / 2 then b.right[j] else b.left[j]) ∧
          b.engineStep.right[j] =
            (if j < b.blen.toNat / 2 then
              b.left[j] ^^^ BitVec.ofNat 8 ((b.right[j].toNat + b.key[i].toNat) % 256)
            else b.right[j]))

/-- R93: the STORE step: right half first, then left half, and the command ends; cells of `DOUT` beyond them keep their
bytes. -/
def Obligations.StoreStepFollowsItsRule : Prop :=
  ∀ b : Block, b.busy = true → b.phase = .store →
    b.engineStep = { b with dout := b.engineStep.dout, busy := false, done := true, phase := .idle } ∧
    (∀ j, j < b.blen.toNat / 2 →
      b.engineStep.dout[j]? = b.right[j]? ∧ b.engineStep.dout[b.blen.toNat / 2 + j]? = b.left[j]?) ∧
    (∀ j, 2 * (b.blen.toNat / 2) ≤ j → b.engineStep.dout[j]? = b.dout[j]?)

/-- R10 ("engine writes"), R11 to R21: what no engine step changes, and what only the named steps change. -/
def Obligations.EngineWritesOnlyWhatTheStateTableSays : Prop :=
  ∀ b : Block,
    b.engineStep.din = b.din ∧ b.engineStep.rounds = b.rounds ∧ b.engineStep.blen = b.blen ∧
    b.engineStep.mode = b.mode ∧ b.engineStep.chain = b.chain ∧
    (b.phase ≠ .store → b.engineStep.dout = b.dout) ∧
    (b.phase ≠ .kgen →
      b.engineStep.key = b.key ∧ b.engineStep.klen = b.klen ∧ b.engineStep.ki = b.ki) ∧
    (b.phase ≠ .load → b.phase ≠ .round →
      b.engineStep.left = b.left ∧ b.engineStep.right = b.right ∧ b.engineStep.rnd = b.rnd) ∧
    (b.phase ≠ .load → b.engineStep.err = b.err) ∧
    (b.busy = false → b.engineStep = b)

/-- R10 ("host writes"): what no instruction of the host ever changes, a command's acceptance among them. -/
def Obligations.HostNeverWritesTheReadOnlyState : Prop :=
  ∀ (i : Instr) (s t : State), exec i s = .next t →
    t.block.dout = s.block.dout ∧ t.block.left = s.block.left ∧ t.block.right = s.block.right ∧
    t.block.rnd = s.block.rnd ∧
    ((∀ a v, i ≠ .wr a v) →
      t.block.din = s.block.din ∧ t.block.key = s.block.key ∧ t.block.rounds = s.block.rounds ∧
      t.block.klen = s.block.klen ∧ t.block.blen = s.block.blen) ∧
    (∀ a v, i = .wr a v → a.toNat ≠ 0 →
      t.block.phase = s.block.phase ∧ t.block.mode = s.block.mode ∧ t.block.chain = s.block.chain ∧
      t.block.ki = s.block.ki ∧ t.block.busy = s.block.busy ∧ t.block.done = s.block.done ∧
      t.block.err = s.block.err)

/-! ## Control flow, status, invariants -/

/-- R102: the transitions of the state machine and no others, in every state that meets R26. -/
def Obligations.TransitionsFollowTheTable : Prop :=
  ∀ s t : State, s.block.Inv → step s = .next t →
    (s.nextTurn = .reset → t.block.phase = .idle ∧ t.block.statusByte = 0x00#8) ∧
    (s.nextTurn = .host →
      (t.block.phase = s.block.phase ∧ t.block.busy = s.block.busy) ∨
        (s.block.phase = .idle ∧ t.block.busy = true ∧ (t.block.phase = .kgen ∨ t.block.phase = .load))) ∧
    (s.nextTurn = .engine →
      match s.block.phase with
      | .idle => t.block = s.block
      | .kgen =>
        if s.block.ki.toNat < s.block.rounds.toNat then t.block.phase = .kgen
        else if s.block.chain then t.block.phase = .load
        else t.block.phase = .idle ∧ t.block.statusByte = 0x02#8
      | .load =>
        if s.block.blen.toNat % 2 = 1 then t.block.phase = .idle ∧ t.block.statusByte = 0x04#8
        else t.block.phase = .round
      | .round => if s.block.rnd = s.block.klen then t.block.phase = .store else t.block.phase = .round
      | .store => t.block.phase = .idle ∧ t.block.statusByte = 0x02#8)

/-- R18, R122, R125: `DONE` and `ERR` rise only at the last step of a command, and fall only when a command is accepted or at
reset: no read, operand write, NOP or reserved byte acknowledges them. -/
def Obligations.DoneAndErrChangeOnlyAsStated : Prop :=
  ∀ s t : State, s.block.Inv → step s = .next t →
    ((s.block.done = true ∧ t.block.done = false) ∨ (s.block.err = true ∧ t.block.err = false) →
      s.nextTurn = .reset ∨ (s.nextTurn = .host ∧ s.block.busy = false ∧ t.block.busy = true)) ∧
    (s.block.done = false → t.block.done = true →
      s.nextTurn = .engine ∧ t.block.busy = false ∧
        (s.block.phase = .store ∨ (s.block.phase = .kgen ∧ s.block.chain = false))) ∧
    (s.block.err = false → t.block.err = true →
      s.nextTurn = .engine ∧ s.block.phase = .load ∧ s.block.blen.toNat % 2 = 1 ∧ t.block.busy = false)

/-- R18: `STATUS` takes only the values 0x00, 0x01, 0x02 and 0x04, in every state that meets R26. -/
def Obligations.StatusTakesOnlyFourValues : Prop :=
  ∀ b : Block, b.Inv →
    b.statusByte = 0x00#8 ∨ b.statusByte = 0x01#8 ∨ b.statusByte = 0x02#8 ∨ b.statusByte = 0x04#8

/-- R26: the state after reset meets the invariants. -/
def Obligations.ResetMeetsTheInvariants : Prop := State.reset.block.Inv

/-- R26: every step, of either agent or the reset event, keeps the invariants, from every state that meets them. -/
def Obligations.EveryStepKeepsTheInvariants : Prop :=
  ∀ s t : State, s.block.Inv → step s = .next t → t.block.Inv

/-- R26: every state reachable from reset meets (a) to (f), whatever program the host runs and whatever the interleaving, and
(g) a host step there leaves a busy block as it is. -/
def Obligations.ReachableStatesMeetTheInvariants : Prop :=
  ∀ (k : Nat) (script : List HostLine) (turns : List Turn) (t : State),
    run k { State.reset with script := script, turns := turns } = .next t →
    t.block.Inv ∧
    (t.block.busy = true → t.turns.head? = some .host → ∃ u, step t = .next u ∧ u.block = t.block)

/-- R149, R150: while `BUSY = 1` there is exactly one enabled step and it brings the command one step nearer to its end;
there is none when `BUSY = 0`. -/
def Obligations.EachEngineStepBringsTheEndNearer : Prop :=
  ∀ b : Block, b.Inv →
    (b.busy = true → b.engineStep.stepsLeft + 1 = b.stepsLeft) ∧
    (b.busy = false → b.stepsLeft = 0 ∧ b.engineStep = b)

/-- R149: the engine steps of each command, none for NOP and a reserved byte: `BUSY` is 1 for exactly the number of engine
steps the table gives, at most 514. -/
def Obligations.StepCountsOfCommands : Prop :=
  ∀ s : State, s.block.busy = false →
    let r := s.block.rounds.toNat
    let n := s.block.klen.toNat
    let odd := s.block.blen.toNat % 2 = 1
    ∀ (i : Instr) (count : Nat),
      ((i = .nop ∨ ∃ v : Byte, i = .wr 0x000#11 v ∧ (v.toNat = 0x01 ∨ v.toNat = 0x03 ∨ 0x08 ≤ v.toNat)) ∧ count = 0) ∨
        (i = .genkeys ∧ count = r + 1) ∨
        ((i = .processFwd ∨ i = .processInv) ∧ ((odd ∧ count = 1) ∨ (¬odd ∧ count = n + 3))) ∨
        ((i = .encrypt ∨ i = .decrypt) ∧ ((odd ∧ count = r + 2) ∨ (¬odd ∧ count = 2 * r + 4))) →
      ∃ t, exec i s = .next t ∧ count ≤ 514 ∧
        ∀ k, (Block.engineStep^[k] t.block).busy = decide (k < count)

/-- R149, R150: left alone, every running command ends within 514 steps, and the host's program stands where it stood. That the
engine goes on where no interleaving is laid down is the model's choice (assumption log 3). -/
def Obligations.EveryRunningCommandEnds : Prop :=
  ∀ s : State, s.block.Inv → s.turns = [] → s.block.busy = true →
    ∃ k ≤ 514, ∃ t, run k s = .next t ∧ t.block.busy = false ∧ t.script = s.script ∧ t.rdata = s.rdata

/-! ## Agreement of the two levels -/

/-- R78: after GENKEYS is accepted with `ROUNDS = r` and after exactly `r + 1` engine steps, whatever host steps are
interleaved, the schedule stands in the key store; the key generation of ENCRYPT and DECRYPT the same, with its exit to
LOAD. -/
def Obligations.GenkeysAgreesWithGenerate : Prop :=
  ∀ (s : State) (ts rest : List Turn), s.block.busy = false →
    EngineRun (s.block.rounds.toNat + 1) ts → s.turns = ts ++ rest →
    (∃ s₁ t, exec .genkeys s = .next s₁ ∧ run ts.length s₁ = .next t ∧ t.turns = rest ∧
      t.block = { s.block with
        key := t.block.key, klen := s.block.rounds, ki := s.block.rounds
        busy := false, done := true, err := false, phase := .idle, chain := false } ∧
      firstCells t.block.key s.block.rounds.toNat = generate s.block.rounds.toNat ∧
      cellsFrom t.block.key s.block.rounds.toNat = cellsFrom s.block.key s.block.rounds.toNat) ∧
    (∀ (i : Instr) (m : Mode), (i = .encrypt ∧ m = .forward) ∨ (i = .decrypt ∧ m = .inverse) →
      ∃ s₁ t, exec i s = .next s₁ ∧ run ts.length s₁ = .next t ∧ t.turns = rest ∧
        t.block = { s.block with
          key := t.block.key, klen := s.block.rounds, ki := s.block.rounds
          busy := true, done := false, err := false, phase := .load, mode := m, chain := true } ∧
        firstCells t.block.key s.block.rounds.toNat = generate s.block.rounds.toNat ∧
        cellsFrom t.block.key s.block.rounds.toNat = cellsFrom s.block.key s.block.rounds.toNat)

/-- R94: after exactly `n + 3` engine steps of a process of even length, whatever host steps are interleaved, `DOUT[0..B)` is
`process` of the operands at acceptance; of an odd length, after exactly 1 engine step `STATUS = 0x04`. Nothing is changed
but what the rule names. -/
def Obligations.ProcessAgreesWithFunction : Prop :=
  ∀ (s : State) (ts rest : List Turn) (i : Instr) (m : Mode), s.block.busy = false →
    (i = .processFwd ∧ m = .forward) ∨ (i = .processInv ∧ m = .inverse) → s.turns = ts ++ rest →
    let B := s.block.blen.toNat
    let H := B / 2
    let n := s.block.klen.toNat
    (B % 2 = 0 → EngineRun (n + 3) ts →
      ∃ s₁ t, exec i s = .next s₁ ∧ run ts.length s₁ = .next t ∧ t.turns = rest ∧
        t.block = { s.block with
          dout := t.block.dout, left := t.block.left, right := t.block.right, rnd := s.block.klen
          busy := false, done := true, err := false, phase := .idle, mode := m, chain := false } ∧
        process (firstCells s.block.din B) (firstCells s.block.key n) m = .ok (firstCells t.block.dout B) ∧
        firstCells t.block.right H ++ firstCells t.block.left H = firstCells t.block.dout B ∧
        cellsFrom t.block.dout B = cellsFrom s.block.dout B ∧
        cellsFrom t.block.left H = cellsFrom s.block.left H ∧ cellsFrom t.block.right H = cellsFrom s.block.right H) ∧
    (B % 2 = 1 → EngineRun 1 ts →
      ∃ s₁ t, exec i s = .next s₁ ∧ run ts.length s₁ = .next t ∧ t.turns = rest ∧
        t.block.statusByte = 0x04#8 ∧
        t.block = { s.block with
          busy := false, done := false, err := true, phase := .idle, mode := m, chain := false })

/-- R98: a block of odd length fails whatever the keys, the mode and the data, at the function level and in the machine, in
each of the four commands that contain a process. -/
def Obligations.OddLengthAlwaysFails : Prop :=
  (∀ (block keys : List Byte) (m : Mode), block.length % 2 = 1 → process block keys m = .error .malformedInput) ∧
  (∀ (b : Block) (m : Mode), b.busy = false → b.blen.toNat % 2 = 1 →
    (Block.engineStep^[1] (b.acceptProcess m)).statusByte = 0x04#8 ∧
    (Block.engineStep^[b.rounds.toNat + 2] (b.acceptCrypt m)).statusByte = 0x04#8)

/-- R113, with the results of R110 and R111: ENCRYPT and DECRYPT of even length end after exactly `2r + 4` engine steps with the
schedule generated and `process` of it in `DOUT`; of odd length after exactly `r + 2`, with the schedule generated and
`STATUS = 0x04`. Nothing is changed but what the rules name: of the working halves the cells below `H`, which end as the two
halves of the result. -/
def Obligations.CryptAgreesWithFunction : Prop :=
  ∀ (s : State) (ts rest : List Turn) (i : Instr) (m : Mode), s.block.busy = false →
    (i = .encrypt ∧ m = .forward) ∨ (i = .decrypt ∧ m = .inverse) → s.turns = ts ++ rest →
    let B := s.block.blen.toNat
    let H := B / 2
    let r := s.block.rounds.toNat
    (B % 2 = 0 → EngineRun (2 * r + 4) ts →
      ∃ s₁ t, exec i s = .next s₁ ∧ run ts.length s₁ = .next t ∧ t.turns = rest ∧
        t.block = { s.block with
          key := t.block.key, klen := s.block.rounds, ki := s.block.rounds
          dout := t.block.dout, left := t.block.left, right := t.block.right, rnd := s.block.rounds
          busy := false, done := true, err := false, phase := .idle, mode := m, chain := true } ∧
        firstCells t.block.key r = generate r ∧ cellsFrom t.block.key r = cellsFrom s.block.key r ∧
        process (firstCells s.block.din B) (generate r) m = .ok (firstCells t.block.dout B) ∧
        firstCells t.block.right H ++ firstCells t.block.left H = firstCells t.block.dout B ∧
        cellsFrom t.block.dout B = cellsFrom s.block.dout B ∧
        cellsFrom t.block.left H = cellsFrom s.block.left H ∧ cellsFrom t.block.right H = cellsFrom s.block.right H) ∧
    (B % 2 = 1 → EngineRun (r + 2) ts →
      ∃ s₁ t, exec i s = .next s₁ ∧ run ts.length s₁ = .next t ∧ t.turns = rest ∧
        t.block.statusByte = 0x04#8 ∧
        t.block = { s.block with
          key := t.block.key, klen := s.block.rounds, ki := s.block.rounds
          busy := false, done := false, err := true, phase := .idle, mode := m, chain := true } ∧
        firstCells t.block.key r = generate r ∧ cellsFrom t.block.key r = cellsFrom s.block.key r)

/-! ## The function level -/

/-- R75: `generate(rounds)` has exactly `rounds` bytes, byte `i` is `((i + 1) * 42) mod 256`, and it is the start of every
longer schedule. -/
def Obligations.GenerateFollowsTheFormula : Prop :=
  ∀ r : Nat, (generate r).length = r ∧
    (∀ i, i < r → (generate r)[i]? = some (BitVec.ofNat 8 ((i + 1) * 42 % 256))) ∧
    (∀ r', r ≤ r' → (generate r').take r = generate r)

/-- R79: the key is the low 8 bits of a product of at most 10710; the 8-bit recurrence gives the same sequence; it first wraps at `i + 1 = 7` (key 38), is 0 at `i + 1 = 128`, and has
period 128. -/
def Obligations.KeyFormulaIsAnAccumulatorOfPeriod128 : Prop :=
  (∀ i, i < 255 → (i + 1) * 42 ≤ 10710 ∧ (keyByte i).toNat = (i + 1) * 42 % 256) ∧
  keyByte 0 = 42#8 ∧ (∀ i, keyByte (i + 1) = keyByte i + 42#8) ∧
  (∀ i, i < 6 → (keyByte i).toNat = (i + 1) * 42) ∧ keyByte 6 = 38#8 ∧ keyByte 127 = 0#8 ∧
  (∀ r i, i + 128 < r → (generate r)[i + 128]? = (generate r)[i]?)

/-- R95: INVERSE undoes FORWARD for every even-length block and every key sequence, at the function level and in the machine:
PROCESS.FWD, the result moved to `DIN`, PROCESS.INV with the same keys, and `DOUT` holds the block again. -/
def Obligations.InverseUndoesForward : Prop :=
  (∀ block keys : List Byte, block.length % 2 = 0 →
    ∃ c, process block keys .forward = .ok c ∧ process c keys .inverse = .ok block) ∧
  (∀ (b : Block) (din : Vector Byte 254), b.busy = false → b.blen.toNat % 2 = 0 →
    let mid := Block.engineStep^[b.klen.toNat + 3] (b.acceptProcess .forward)
    firstCells din b.blen.toNat = firstCells mid.dout b.blen.toNat →
    let fin := Block.engineStep^[b.klen.toNat + 3] ({ mid with din := din }.acceptProcess .inverse)
    firstCells fin.dout b.blen.toNat = firstCells b.din b.blen.toNat ∧ fin.statusByte = 0x02#8)

/-- R100: FORWARD undoes INVERSE and INVERSE undoes FORWARD, so the two are inverse bijections on blocks of each even length; each
mode is the other with the key sequence reversed. -/
def Obligations.ForwardUndoesInverse : Prop :=
  ∀ block keys : List Byte,
    process block keys .inverse = process block keys.reverse .forward ∧
    process block keys .forward = process block keys.reverse .inverse ∧
    (block.length % 2 = 0 →
      (∃ c, process block keys .inverse = .ok c ∧ c.length = block.length ∧ process c keys .forward = .ok block) ∧
      (∃ c, process block keys .forward = .ok c ∧ c.length = block.length ∧ process c keys .inverse = .ok block))

/-- R110, R111: DECRYPT of the output of ENCRYPT with the same `ROUNDS` returns the original block. -/
def Obligations.DecryptUndoesEncrypt : Prop :=
  ∀ (b : Block) (din : Vector Byte 254), b.busy = false → b.blen.toNat % 2 = 0 →
    let mid := Block.engineStep^[2 * b.rounds.toNat + 4] (b.acceptCrypt .forward)
    firstCells din b.blen.toNat = firstCells mid.dout b.blen.toNat →
    let fin := Block.engineStep^[2 * b.rounds.toNat + 4] ({ mid with din := din }.acceptCrypt .inverse)
    firstCells fin.dout b.blen.toNat = firstCells b.din b.blen.toNat ∧ fin.phaseByte = 0x18#8

/-- R96: a result has the length of its block, and STORE writes exactly `DOUT[0..BLEN)` when `BLEN` is even. -/
def Obligations.ProcessKeepsTheLength : Prop :=
  (∀ (block keys c : List Byte) (m : Mode), process block keys m = .ok c → c.length = block.length) ∧
  (∀ b : Block, b.busy = true → b.phase = .store → b.blen.toNat % 2 = 0 →
    firstCells b.engineStep.dout b.blen.toNat =
      firstCells b.right (b.blen.toNat / 2) ++ firstCells b.left (b.blen.toNat / 2) ∧
    cellsFrom b.engineStep.dout b.blen.toNat = cellsFrom b.dout b.blen.toNat)

/-- R97: with no keys, `process` returns the block with its halves swapped, in either mode, and twice returns the block; in the
machine, with `KLEN = 0`, the result does not depend on any `KEY` cell and `RND = 0`, `DONE = 1`. -/
def Obligations.ZeroRoundsSwapTheHalves : Prop :=
  (∀ (block : List Byte) (m : Mode), block.length % 2 = 0 →
    process block [] m = .ok (block.drop (block.length / 2) ++ block.take (block.length / 2)) ∧
    process (block.drop (block.length / 2) ++ block.take (block.length / 2)) [] m = .ok block) ∧
  (∀ (b : Block) (m : Mode), b.busy = false → b.klen = 0#8 → b.blen.toNat % 2 = 0 →
    let t := Block.engineStep^[3] (b.acceptProcess m)
    firstCells t.dout b.blen.toNat =
      (firstCells b.din b.blen.toNat).drop (b.blen.toNat / 2) ++ (firstCells b.din b.blen.toNat).take (b.blen.toNat / 2) ∧
    t.rnd = 0#8 ∧ t.statusByte = 0x02#8 ∧ t.key = b.key)

/-- R103: a process of the empty block changes no data cell in any of its steps, runs its `KLEN` rounds, each advancing `RND`
alone, and ends with `DONE = 1`, `RND = KLEN`; the result is the empty block. -/
def Obligations.EmptyBlockChangesNoCell : Prop :=
  (∀ (keys : List Byte) (m : Mode), process [] keys m = .ok []) ∧
  ∀ (b : Block) (m : Mode), b.busy = false → b.blen = 0#8 →
    (∀ i, i ≤ b.klen.toNat → Block.engineStep^[i + 1] (b.acceptProcess m) = { b.acceptProcess m with
      rnd := BitVec.ofNat 8 i, phase := .round }) ∧
    Block.engineStep^[b.klen.toNat + 2] (b.acceptProcess m) = { b.acceptProcess m with rnd := b.klen, phase := .store } ∧
    Block.engineStep^[b.klen.toNat + 3] (b.acceptProcess m) = { b with
      rnd := b.klen, mode := m, chain := false, busy := false, done := true, err := false, phase := .idle }

/-- R104: position `j` of both output halves depends only on position `j` of the input halves and on the keys: `process` is one
copy of the two-byte process for each position. -/
def Obligations.PositionsAreIndependent : Prop :=
  ∀ (block keys out : List Byte) (m : Mode), process block keys m = .ok out →
    ∀ j, j < block.length / 2 →
      ∃ x y u v : Byte, block[j]? = some x ∧ block[block.length / 2 + j]? = some y ∧
        out[j]? = some u ∧ out[block.length / 2 + j]? = some v ∧
        process [x, y] keys m = .ok [u, v]

/-- R104: what earlier commands left in `LEFT`, `RIGHT`, `RND`, `DOUT`, `DONE`, `ERR`, `KI` or `ROUNDS` never influences the result of a
process: two blocks that agree on the operands end with the same result. -/
def Obligations.EarlierCommandsDoNotInfluenceAProcess : Prop :=
  ∀ (b c : Block) (m : Mode), b.busy = false → c.busy = false →
    b.blen = c.blen → b.klen = c.klen →
    firstCells b.din b.blen.toNat = firstCells c.din b.blen.toNat →
    firstCells b.key b.klen.toNat = firstCells c.key b.klen.toNat →
    let b' := Block.engineStep^[b.klen.toNat + 3] (b.acceptProcess m)
    let c' := Block.engineStep^[b.klen.toNat + 3] (c.acceptProcess m)
    b'.statusByte = c'.statusByte ∧
    (b.blen.toNat % 2 = 0 → firstCells b'.dout b.blen.toNat = firstCells c'.dout b.blen.toNat ∧ b'.rnd = c'.rnd)

/-! ## Host scripts -/

/-- R41, R67: every target that is in its bounds names the register, the cell or the address it says: a register name, `ARR[n]`
inside its array, a numeric address below 2048. -/
def Obligations.TargetsResolveByTheMap : Prop :=
  locate Target.cmd.addr = .cmd ∧ locate Target.status.addr = .status ∧ locate Target.rounds.addr = .rounds ∧
  locate Target.klen.addr = .klen ∧ locate Target.blen.addr = .blen ∧ locate Target.rnd.addr = .rnd ∧
  locate Target.phase.addr = .phase ∧ locate Target.ki.addr = .ki ∧
  (∀ n : Fin 255, locate (Target.key n).addr = .key n) ∧
  (∀ n : Fin 254, locate (Target.din n).addr = .din n) ∧
  (∀ n : Fin 254, locate (Target.dout n).addr = .dout n) ∧
  (∀ n : Fin 127, locate (Target.left n).addr = .left n) ∧
  (∀ n : Fin 127, locate (Target.right n).addr = .right n) ∧
  (∀ a : Nat, a < 2 ^ 11 → (Target.numeric a).addr.toNat = a)

/-- R67: `LOADBLK` and `LOADKEYS`, run on an idle block, set the length register and the first cells of their array, and
nothing else. It is about runs in which no turn is laid down: that the host then goes on is the MODEL'S CHOICE (assumption
log 3), and so is the program as a list (assumption log 2). -/
def Obligations.LoadScriptsSetLengthAndCells : Prop :=
  ∀ (s : State) (bytes : List Byte) (rest : List HostLine), s.block.busy = false → s.turns = [] →
    ((ScriptLine.loadBlk bytes).wellFormed = true → s.script = (ScriptLine.loadBlk bytes).expand ++ rest →
      ∃ t, run (bytes.length + 1) s = .next t ∧
        t = { s with script := rest, block := { s.block with
          blen := BitVec.ofNat 8 bytes.length, din := t.block.din } } ∧
        firstCells t.block.din bytes.length = bytes ∧
        cellsFrom t.block.din bytes.length = cellsFrom s.block.din bytes.length) ∧
    ((ScriptLine.loadKeys bytes).wellFormed = true → s.script = (ScriptLine.loadKeys bytes).expand ++ rest →
      ∃ t, run (bytes.length + 1) s = .next t ∧
        t = { s with script := rest, block := { s.block with
          klen := BitVec.ofNat 8 bytes.length, key := t.block.key } } ∧
        firstCells t.block.key bytes.length = bytes ∧
        cellsFrom t.block.key bytes.length = cellsFrom s.block.key bytes.length)

/-- R45, R67: `READBLK n` reads `DOUT[0..n)` in ascending order and changes nothing of the block. The MODEL'S CHOICES: no turn is
laid down, and the host then goes on (assumption log 3); the bytes read stand in a list, newest first (assumption log 2). -/
def Obligations.ReadScriptReadsTheResult : Prop :=
  ∀ (s : State) (n : Nat) (rest : List HostLine), s.block.busy = false → s.turns = [] →
    (ScriptLine.readBlk n).wellFormed = true → s.script = (ScriptLine.readBlk n).expand ++ rest →
    run n s = .next { s with script := rest, rdata := (firstCells s.block.dout n).reverse ++ s.rdata }
end

