-- ==== Sys2Proof/Laws/Encoding.lean ====
section
/-! SUPPORT. The fields of a `BUS20` word, read back from the number its encoder makes (R66). -/

namespace Sys2Proof

theorem busWord_toNat (we : Bool) (a : Addr) (d : Byte) :
    (busWord we a d).toNat = (if we then 0x80000 else 0) + a.toNat * 0x100 + d.toNat := by
  have := a.isLt
  have := d.isLt
  simp only [busWord, BitVec.toNat_ofNat]
  apply Nat.mod_eq_of_lt
  split <;> omega

/-- The fields of a word as digits of its number. -/
theorem busWe_eq (w : BitVec 20) : busWe w = decide (0x80000 ≤ w.toNat) := by
  have := w.isLt
  simp only [busWe, BitVec.getLsbD, Nat.testBit_eq_decide_div_mod_eq]
  congr 1
  apply propext
  omega

@[inherit_doc busWe_eq] theorem busAddr_toNat (w : BitVec 20) : (busAddr w).toNat = w.toNat / 0x100 % 0x800 := by
  simp [busAddr, BitVec.extractLsb'_toNat, Nat.shiftRight_eq_div_pow]

@[inherit_doc busWe_eq] theorem busData_toNat (w : BitVec 20) : (busData w).toNat = w.toNat % 0x100 := by
  simp [busData, BitVec.extractLsb'_toNat]

theorem busWe_busWord (we : Bool) (a : Addr) (d : Byte) : busWe (busWord we a d) = we := by
  have := a.isLt
  have := d.isLt
  rw [busWe_eq, busWord_toNat]
  cases we <;> simp <;> omega

theorem busAddr_busWord (we : Bool) (a : Addr) (d : Byte) : busAddr (busWord we a d) = a := by
  apply BitVec.eq_of_toNat_eq
  have := a.isLt
  have := d.isLt
  rw [busAddr_toNat, busWord_toNat]
  split <;> omega

theorem busData_busWord (we : Bool) (a : Addr) (d : Byte) : busData (busWord we a d) = d := by
  apply BitVec.eq_of_toNat_eq
  have := d.isLt
  rw [busData_toNat, busWord_toNat]
  split <;> omega

/-- A word is made of its three fields. -/
theorem busWord_fields (w : BitVec 20) : busWord (busWe w) (busAddr w) (busData w) = w := by
  apply BitVec.eq_of_toNat_eq
  have := w.isLt
  rw [busWord_toNat, busWe_eq, busAddr_toNat, busData_toNat]
  simp only [decide_eq_true_eq]
  split <;> omega

end Sys2Proof
end

