-- ==== Sys2Proof/Laws/Function.lean ====
section
/-! SUPPORT. What the pure functions do, said once: lengths, single bytes, and one round undone. -/

namespace Sys2Proof.Machine

/-! ### The key schedule -/

@[simp] theorem generate_length (r : Nat) : (generate r).length = r := by simp [generate]

theorem generate_succ (r : Nat) : generate (r + 1) = generate r ++ [keyByte r] := by
  simp [generate, List.range_succ]

theorem generate_getElem? {r i : Nat} (h : i < r) : (generate r)[i]? = some (keyByte i) := by
  simp [generate, h]

/-! ### Key selection -/

theorem kidx_lt {m : Mode} {n i : Nat} (h : i < n) : kidx m n i < n := by
  cases m <;> simp only [kidx] <;> omega

theorem roundKey_getElem {m : Mode} {keys : List Byte} {i : Nat} (h : i < keys.length) :
    roundKey m keys i = keys[kidx m keys.length i]'(kidx_lt h) := by
  simp [roundKey, kidx_lt h]

/-! ### Rounds -/

/-- Both halves have the same length. -/
def Halves.Balanced (h : Halves) (n : Nat) : Prop := h.left.length = n ∧ h.right.length = n

theorem Halves.round_balanced {h : Halves} {n : Nat} (hb : h.Balanced n) (k : Byte) : (h.round k).Balanced n := by
  obtain ⟨h1, h2⟩ := hb
  simp [Halves.Balanced, Halves.round, h1, h2]

theorem Halves.afterRounds_balanced {h : Halves} {n : Nat} (hb : h.Balanced n) (m : Mode) (keys : List Byte) (i : Nat) :
    (h.afterRounds m keys i).Balanced n := by
  induction i with
  | zero => exact hb
  | succ i ih => exact Halves.round_balanced ih _

theorem Halves.split_balanced {block : List Byte} (h : block.length % 2 = 0) :
    (Halves.split block).Balanced (block.length / 2) := by
  simp only [Halves.Balanced, Halves.split, List.length_take, List.length_drop]
  omega

/-- The halves exchanged. -/
def Halves.swap (h : Halves) : Halves := ⟨h.right, h.left⟩

/-- A round, the exchange and the same round again give the exchanged halves back: `(a XOR b) XOR b = a` (R95). -/
theorem Halves.round_swap_round {h : Halves} {n : Nat} (hb : h.Balanced n) (k : Byte) :
    ((h.round k).swap).round k = h.swap := by
  obtain ⟨h1, h2⟩ := hb
  obtain ⟨l, r⟩ := h
  simp only [Halves.round, Halves.swap, Halves.mk.injEq, true_and] at *
  apply List.ext_getElem
  · simp [h1, h2]
  · intro i hi hi'
    simp

/-- Split undoes concatenation of two halves of one length. -/
theorem Halves.split_append {l r : List Byte} (h : l.length = r.length) : Halves.split (l ++ r) = ⟨l, r⟩ := by
  have e : (l ++ r).length / 2 = l.length := by simp [h]; omega
  simp only [Halves.split, e, List.take_left', List.drop_left']

/-- What `process` does on an even block. -/
theorem process_even {block : List Byte} (h : block.length % 2 = 0) (keys : List Byte) (m : Mode) :
    process block keys m =
      .ok (((Halves.split block).afterRounds m keys keys.length).right ++
        ((Halves.split block).afterRounds m keys keys.length).left) := by
  simp [process, h]

theorem process_odd {block : List Byte} (h : block.length % 2 = 1) (keys : List Byte) (m : Mode) :
    process block keys m = .error .malformedInput := by
  simp [process, h]

/-- The other mode. -/
def Mode.other : Mode → Mode
  | .forward => .inverse
  | .inverse => .forward

theorem kidx_other {m : Mode} {n i : Nat} (h : i < n) : kidx (Mode.other m) n (n - 1 - i) = kidx m n i := by
  cases m
  · simp only [kidx, Mode.other]
    omega
  · rfl

theorem roundKey_other {m : Mode} {keys : List Byte} {i : Nat} (h : i < keys.length) :
    roundKey (Mode.other m) keys (keys.length - 1 - i) = roundKey m keys i := by
  simp only [roundKey, kidx_other h]

/-- The rounds of the other mode, started from the exchanged halves, walk the first run backwards (R95). -/
theorem Halves.afterRounds_other {h : Halves} {n : Nat} (hb : h.Balanced n) (m : Mode) (keys : List Byte) {i : Nat}
    (hi : i ≤ keys.length) :
    ((h.afterRounds m keys keys.length).swap).afterRounds (Mode.other m) keys i =
      (h.afterRounds m keys (keys.length - i)).swap := by
  induction i with
  | zero => simp [Halves.afterRounds]
  | succ i ih =>
    have e : keys.length - i = (keys.length - (i + 1)) + 1 := by omega
    rw [Halves.afterRounds, ih (by omega), e, Halves.afterRounds]
    have hk : roundKey (Mode.other m) keys i = roundKey m keys (keys.length - (i + 1)) := by
      rw [← roundKey_other (m := m) (i := keys.length - (i + 1)) (by omega)]
      congr 1
      omega
    rw [hk]
    exact Halves.round_swap_round (Halves.afterRounds_balanced hb m keys _) _

/-- A mode is the other mode with the key sequence reversed (R100). -/
theorem roundKey_reverse {m : Mode} {keys : List Byte} {i : Nat} (h : i < keys.length) :
    roundKey (Mode.other m) keys.reverse i = roundKey m keys i := by
  have h' : i < keys.reverse.length := by simpa using h
  rw [roundKey_getElem h, roundKey_getElem h', List.getElem_reverse]
  congr 1
  cases m <;> simp only [kidx, Mode.other, List.length_reverse]
  omega

theorem Halves.afterRounds_reverse (h : Halves) (m : Mode) (keys : List Byte) {i : Nat} (hi : i ≤ keys.length) :
    h.afterRounds (Mode.other m) keys.reverse i = h.afterRounds m keys i := by
  induction i with
  | zero => rfl
  | succ i ih => rw [Halves.afterRounds, Halves.afterRounds, ih (by omega), roundKey_reverse (by omega)]

end Sys2Proof.Machine
end

