-- ==== Sys2Proof/Laws/State.lean ====
section
/-! SUPPORT. One lemma for each field under each update of the state, so that no later proof unfolds a record update. -/

namespace Sys2Proof.Machine

/-! ### The three changes of the status flags -/


@[simp] theorem Block.acceptFlags_din (b : Block) : (b.acceptFlags).din = b.din := rfl
@[simp] theorem Block.acceptFlags_dout (b : Block) : (b.acceptFlags).dout = b.dout := rfl
@[simp] theorem Block.acceptFlags_key (b : Block) : (b.acceptFlags).key = b.key := rfl
@[simp] theorem Block.acceptFlags_left (b : Block) : (b.acceptFlags).left = b.left := rfl
@[simp] theorem Block.acceptFlags_right (b : Block) : (b.acceptFlags).right = b.right := rfl
@[simp] theorem Block.acceptFlags_rounds (b : Block) : (b.acceptFlags).rounds = b.rounds := rfl
@[simp] theorem Block.acceptFlags_klen (b : Block) : (b.acceptFlags).klen = b.klen := rfl
@[simp] theorem Block.acceptFlags_blen (b : Block) : (b.acceptFlags).blen = b.blen := rfl
@[simp] theorem Block.acceptFlags_rnd (b : Block) : (b.acceptFlags).rnd = b.rnd := rfl
@[simp] theorem Block.acceptFlags_ki (b : Block) : (b.acceptFlags).ki = b.ki := rfl
@[simp] theorem Block.acceptFlags_phase (b : Block) : (b.acceptFlags).phase = b.phase := rfl
@[simp] theorem Block.acceptFlags_mode (b : Block) : (b.acceptFlags).mode = b.mode := rfl
@[simp] theorem Block.acceptFlags_chain (b : Block) : (b.acceptFlags).chain = b.chain := rfl
@[simp] theorem Block.acceptFlags_busy (b : Block) : (b.acceptFlags).busy = true := rfl
@[simp] theorem Block.acceptFlags_done (b : Block) : (b.acceptFlags).done = false := rfl
@[simp] theorem Block.acceptFlags_err (b : Block) : (b.acceptFlags).err = false := rfl

@[simp] theorem Block.endNormally_din (b : Block) : (b.endNormally).din = b.din := rfl
@[simp] theorem Block.endNormally_dout (b : Block) : (b.endNormally).dout = b.dout := rfl
@[simp] theorem Block.endNormally_key (b : Block) : (b.endNormally).key = b.key := rfl
@[simp] theorem Block.endNormally_left (b : Block) : (b.endNormally).left = b.left := rfl
@[simp] theorem Block.endNormally_right (b : Block) : (b.endNormally).right = b.right := rfl
@[simp] theorem Block.endNormally_rounds (b : Block) : (b.endNormally).rounds = b.rounds := rfl
@[simp] theorem Block.endNormally_klen (b : Block) : (b.endNormally).klen = b.klen := rfl
@[simp] theorem Block.endNormally_blen (b : Block) : (b.endNormally).blen = b.blen := rfl
@[simp] theorem Block.endNormally_rnd (b : Block) : (b.endNormally).rnd = b.rnd := rfl
@[simp] theorem Block.endNormally_ki (b : Block) : (b.endNormally).ki = b.ki := rfl
@[simp] theorem Block.endNormally_phase (b : Block) : (b.endNormally).phase = .idle := rfl
@[simp] theorem Block.endNormally_mode (b : Block) : (b.endNormally).mode = b.mode := rfl
@[simp] theorem Block.endNormally_chain (b : Block) : (b.endNormally).chain = b.chain := rfl
@[simp] theorem Block.endNormally_busy (b : Block) : (b.endNormally).busy = false := rfl
@[simp] theorem Block.endNormally_done (b : Block) : (b.endNormally).done = true := rfl
@[simp] theorem Block.endNormally_err (b : Block) : (b.endNormally).err = b.err := rfl

@[simp] theorem Block.raiseMalformedInput_din (b : Block) : (b.raiseMalformedInput).din = b.din := rfl
@[simp] theorem Block.raiseMalformedInput_dout (b : Block) : (b.raiseMalformedInput).dout = b.dout := rfl
@[simp] theorem Block.raiseMalformedInput_key (b : Block) : (b.raiseMalformedInput).key = b.key := rfl
@[simp] theorem Block.raiseMalformedInput_left (b : Block) : (b.raiseMalformedInput).left = b.left := rfl
@[simp] theorem Block.raiseMalformedInput_right (b : Block) : (b.raiseMalformedInput).right = b.right := rfl
@[simp] theorem Block.raiseMalformedInput_rounds (b : Block) : (b.raiseMalformedInput).rounds = b.rounds := rfl
@[simp] theorem Block.raiseMalformedInput_klen (b : Block) : (b.raiseMalformedInput).klen = b.klen := rfl
@[simp] theorem Block.raiseMalformedInput_blen (b : Block) : (b.raiseMalformedInput).blen = b.blen := rfl
@[simp] theorem Block.raiseMalformedInput_rnd (b : Block) : (b.raiseMalformedInput).rnd = b.rnd := rfl
@[simp] theorem Block.raiseMalformedInput_ki (b : Block) : (b.raiseMalformedInput).ki = b.ki := rfl
@[simp] theorem Block.raiseMalformedInput_phase (b : Block) : (b.raiseMalformedInput).phase = .idle := rfl
@[simp] theorem Block.raiseMalformedInput_mode (b : Block) : (b.raiseMalformedInput).mode = b.mode := rfl
@[simp] theorem Block.raiseMalformedInput_chain (b : Block) : (b.raiseMalformedInput).chain = b.chain := rfl
@[simp] theorem Block.raiseMalformedInput_busy (b : Block) : (b.raiseMalformedInput).busy = false := rfl
@[simp] theorem Block.raiseMalformedInput_done (b : Block) : (b.raiseMalformedInput).done = false := rfl
@[simp] theorem Block.raiseMalformedInput_err (b : Block) : (b.raiseMalformedInput).err = true := rfl

/-! ### The acceptance of commands -/


@[simp] theorem Block.acceptGenkeys_din (b : Block) : (b.acceptGenkeys).din = b.din := rfl
@[simp] theorem Block.acceptGenkeys_dout (b : Block) : (b.acceptGenkeys).dout = b.dout := rfl
@[simp] theorem Block.acceptGenkeys_key (b : Block) : (b.acceptGenkeys).key = b.key := rfl
@[simp] theorem Block.acceptGenkeys_left (b : Block) : (b.acceptGenkeys).left = b.left := rfl
@[simp] theorem Block.acceptGenkeys_right (b : Block) : (b.acceptGenkeys).right = b.right := rfl
@[simp] theorem Block.acceptGenkeys_rounds (b : Block) : (b.acceptGenkeys).rounds = b.rounds := rfl
@[simp] theorem Block.acceptGenkeys_klen (b : Block) : (b.acceptGenkeys).klen = b.klen := rfl
@[simp] theorem Block.acceptGenkeys_blen (b : Block) : (b.acceptGenkeys).blen = b.blen := rfl
@[simp] theorem Block.acceptGenkeys_rnd (b : Block) : (b.acceptGenkeys).rnd = b.rnd := rfl
@[simp] theorem Block.acceptGenkeys_ki (b : Block) : (b.acceptGenkeys).ki = 0#8 := rfl
@[simp] theorem Block.acceptGenkeys_phase (b : Block) : (b.acceptGenkeys).phase = .kgen := rfl
@[simp] theorem Block.acceptGenkeys_mode (b : Block) : (b.acceptGenkeys).mode = b.mode := rfl
@[simp] theorem Block.acceptGenkeys_chain (b : Block) : (b.acceptGenkeys).chain = false := rfl
@[simp] theorem Block.acceptGenkeys_busy (b : Block) : (b.acceptGenkeys).busy = true := rfl
@[simp] theorem Block.acceptGenkeys_done (b : Block) : (b.acceptGenkeys).done = false := rfl
@[simp] theorem Block.acceptGenkeys_err (b : Block) : (b.acceptGenkeys).err = false := rfl

@[simp] theorem Block.acceptProcess_din (b : Block) (m : Mode) : (b.acceptProcess m).din = b.din := rfl
@[simp] theorem Block.acceptProcess_dout (b : Block) (m : Mode) : (b.acceptProcess m).dout = b.dout := rfl
@[simp] theorem Block.acceptProcess_key (b : Block) (m : Mode) : (b.acceptProcess m).key = b.key := rfl
@[simp] theorem Block.acceptProcess_left (b : Block) (m : Mode) : (b.acceptProcess m).left = b.left := rfl
@[simp] theorem Block.acceptProcess_right (b : Block) (m : Mode) : (b.acceptProcess m).right = b.right := rfl
@[simp] theorem Block.acceptProcess_rounds (b : Block) (m : Mode) : (b.acceptProcess m).rounds = b.rounds := rfl
@[simp] theorem Block.acceptProcess_klen (b : Block) (m : Mode) : (b.acceptProcess m).klen = b.klen := rfl
@[simp] theorem Block.acceptProcess_blen (b : Block) (m : Mode) : (b.acceptProcess m).blen = b.blen := rfl
@[simp] theorem Block.acceptProcess_rnd (b : Block) (m : Mode) : (b.acceptProcess m).rnd = b.rnd := rfl
@[simp] theorem Block.acceptProcess_ki (b : Block) (m : Mode) : (b.acceptProcess m).ki = b.ki := rfl
@[simp] theorem Block.acceptProcess_phase (b : Block) (m : Mode) : (b.acceptProcess m).phase = .load := rfl
@[simp] theorem Block.acceptProcess_mode (b : Block) (m : Mode) : (b.acceptProcess m).mode = m := rfl
@[simp] theorem Block.acceptProcess_chain (b : Block) (m : Mode) : (b.acceptProcess m).chain = false := rfl
@[simp] theorem Block.acceptProcess_busy (b : Block) (m : Mode) : (b.acceptProcess m).busy = true := rfl
@[simp] theorem Block.acceptProcess_done (b : Block) (m : Mode) : (b.acceptProcess m).done = false := rfl
@[simp] theorem Block.acceptProcess_err (b : Block) (m : Mode) : (b.acceptProcess m).err = false := rfl

@[simp] theorem Block.acceptCrypt_din (b : Block) (m : Mode) : (b.acceptCrypt m).din = b.din := rfl
@[simp] theorem Block.acceptCrypt_dout (b : Block) (m : Mode) : (b.acceptCrypt m).dout = b.dout := rfl
@[simp] theorem Block.acceptCrypt_key (b : Block) (m : Mode) : (b.acceptCrypt m).key = b.key := rfl
@[simp] theorem Block.acceptCrypt_left (b : Block) (m : Mode) : (b.acceptCrypt m).left = b.left := rfl
@[simp] theorem Block.acceptCrypt_right (b : Block) (m : Mode) : (b.acceptCrypt m).right = b.right := rfl
@[simp] theorem Block.acceptCrypt_rounds (b : Block) (m : Mode) : (b.acceptCrypt m).rounds = b.rounds := rfl
@[simp] theorem Block.acceptCrypt_klen (b : Block) (m : Mode) : (b.acceptCrypt m).klen = b.klen := rfl
@[simp] theorem Block.acceptCrypt_blen (b : Block) (m : Mode) : (b.acceptCrypt m).blen = b.blen := rfl
@[simp] theorem Block.acceptCrypt_rnd (b : Block) (m : Mode) : (b.acceptCrypt m).rnd = b.rnd := rfl
@[simp] theorem Block.acceptCrypt_ki (b : Block) (m : Mode) : (b.acceptCrypt m).ki = 0#8 := rfl
@[simp] theorem Block.acceptCrypt_phase (b : Block) (m : Mode) : (b.acceptCrypt m).phase = .kgen := rfl
@[simp] theorem Block.acceptCrypt_mode (b : Block) (m : Mode) : (b.acceptCrypt m).mode = m := rfl
@[simp] theorem Block.acceptCrypt_chain (b : Block) (m : Mode) : (b.acceptCrypt m).chain = true := rfl
@[simp] theorem Block.acceptCrypt_busy (b : Block) (m : Mode) : (b.acceptCrypt m).busy = true := rfl
@[simp] theorem Block.acceptCrypt_done (b : Block) (m : Mode) : (b.acceptCrypt m).done = false := rfl
@[simp] theorem Block.acceptCrypt_err (b : Block) (m : Mode) : (b.acceptCrypt m).err = false := rfl

/-! ### The reset event -/


@[simp] theorem Block.resetEvent_din (b : Block) : (b.resetEvent).din = b.din := rfl
@[simp] theorem Block.resetEvent_dout (b : Block) : (b.resetEvent).dout = b.dout := rfl
@[simp] theorem Block.resetEvent_key (b : Block) : (b.resetEvent).key = b.key := rfl
@[simp] theorem Block.resetEvent_left (b : Block) : (b.resetEvent).left = b.left := rfl
@[simp] theorem Block.resetEvent_right (b : Block) : (b.resetEvent).right = b.right := rfl
@[simp] theorem Block.resetEvent_rounds (b : Block) : (b.resetEvent).rounds = 4#8 := rfl
@[simp] theorem Block.resetEvent_klen (b : Block) : (b.resetEvent).klen = 0#8 := rfl
@[simp] theorem Block.resetEvent_blen (b : Block) : (b.resetEvent).blen = 0#8 := rfl
@[simp] theorem Block.resetEvent_rnd (b : Block) : (b.resetEvent).rnd = 0#8 := rfl
@[simp] theorem Block.resetEvent_ki (b : Block) : (b.resetEvent).ki = 0#8 := rfl
@[simp] theorem Block.resetEvent_phase (b : Block) : (b.resetEvent).phase = .idle := rfl
@[simp] theorem Block.resetEvent_mode (b : Block) : (b.resetEvent).mode = .forward := rfl
@[simp] theorem Block.resetEvent_chain (b : Block) : (b.resetEvent).chain = false := rfl
@[simp] theorem Block.resetEvent_busy (b : Block) : (b.resetEvent).busy = false := rfl
@[simp] theorem Block.resetEvent_done (b : Block) : (b.resetEvent).done = false := rfl
@[simp] theorem Block.resetEvent_err (b : Block) : (b.resetEvent).err = false := rfl

/-! ### The updates of the machine's state -/


@[simp] theorem State.onBlock_block (s : State) (f : Block → Block) : (s.onBlock f).block = f s.block := rfl
@[simp] theorem State.onBlock_rdata (s : State) (f : Block → Block) : (s.onBlock f).rdata = s.rdata := rfl
@[simp] theorem State.onBlock_script (s : State) (f : Block → Block) : (s.onBlock f).script = s.script := rfl
@[simp] theorem State.onBlock_turns (s : State) (f : Block → Block) : (s.onBlock f).turns = s.turns := rfl

@[simp] theorem State.read_block (s : State) (a : Addr) : (s.read a).block = s.block := rfl
@[simp] theorem State.read_rdata (s : State) (a : Addr) : (s.read a).rdata = s.block.hostRead a :: s.rdata := rfl
@[simp] theorem State.read_script (s : State) (a : Addr) : (s.read a).script = s.script := rfl
@[simp] theorem State.read_turns (s : State) (a : Addr) : (s.read a).turns = s.turns := rfl

@[simp] theorem State.dropTurn_block (s : State) : (s.dropTurn).block = s.block := rfl
@[simp] theorem State.dropTurn_rdata (s : State) : (s.dropTurn).rdata = s.rdata := rfl
@[simp] theorem State.dropTurn_script (s : State) : (s.dropTurn).script = s.script := rfl
@[simp] theorem State.dropTurn_turns (s : State) : (s.dropTurn).turns = s.turns.tail := rfl

@[simp] theorem State.engineTurn_block (s : State) : (s.engineTurn).block = s.block.engineStep := rfl
@[simp] theorem State.engineTurn_rdata (s : State) : (s.engineTurn).rdata = s.rdata := rfl
@[simp] theorem State.engineTurn_script (s : State) : (s.engineTurn).script = s.script := rfl
@[simp] theorem State.engineTurn_turns (s : State) : (s.engineTurn).turns = s.turns := rfl

@[simp] theorem State.resetTurn_block (s : State) : (s.resetTurn).block = s.block.resetEvent := rfl
@[simp] theorem State.resetTurn_rdata (s : State) : (s.resetTurn).rdata = s.rdata := rfl
@[simp] theorem State.resetTurn_script (s : State) : (s.resetTurn).script = s.script := rfl
@[simp] theorem State.resetTurn_turns (s : State) : (s.resetTurn).turns = s.turns := rfl

@[simp] theorem State.presentWord_block (s : State) (h : HostWord) : (s.presentWord h).block = s.block := rfl
@[simp] theorem State.presentWord_rdata (s : State) (h : HostWord) : (s.presentWord h).rdata = s.rdata := rfl
@[simp] theorem State.presentWord_script (s : State) (h : HostWord) : (s.presentWord h).script = .word h :: s.script := rfl
@[simp] theorem State.presentWord_turns (s : State) (h : HostWord) : (s.presentWord h).turns = .host :: s.turns := rfl

end Sys2Proof.Machine
end

