-- ==== Sys2Proof/Laws/Ops.lean ====
section
/-! SUPPORT. What the shared operations do, said once: the array update, the address map, the host's read and write. -/

namespace Sys2Proof.Machine

/-! ### Arrays -/

@[simp] theorem getElem_fillBelow {n H : Nat} (v : Vector Byte n) (f : (j : Nat) → j < H → Byte) (i : Nat) (hi : i < n) :
    (fillBelow H v f)[i] = if h : i < H then f i h else v[i] := by
  simp [fillBelow]

theorem fillBelow_zero {n H : Nat} (hH : H = 0) (v : Vector Byte n) (f : (j : Nat) → j < H → Byte) :
    fillBelow H v f = v := by
  subst hH
  ext i hi
  simp

theorem firstCells_length {n k : Nat} (v : Vector Byte n) (h : k ≤ n) : (firstCells v k).length = k := by
  simp [firstCells, h]

theorem getElem?_firstCells {n k i : Nat} (v : Vector Byte n) (h : i < k) : (firstCells v k)[i]? = v[i]? := by
  simp only [firstCells, List.getElem?_take, h, if_true]
  exact v.getElem?_toList

theorem getElem?_cellsFrom {n k i : Nat} (v : Vector Byte n) : (cellsFrom v k)[i]? = v[k + i]? := by
  simp only [cellsFrom, List.getElem?_drop]
  exact v.getElem?_toList

/-- Two arrays have the same first cells when they agree below the length. -/
theorem firstCells_congr {n k : Nat} {v w : Vector Byte n} (h : ∀ i, (hi : i < n) → i < k → v[i] = w[i]) :
    firstCells v k = firstCells w k := by
  apply List.ext_getElem?
  intro i
  by_cases hik : i < k
  · rw [getElem?_firstCells v hik, getElem?_firstCells w hik]
    by_cases hin : i < n
    · rw [Vector.getElem?_eq_getElem hin, Vector.getElem?_eq_getElem hin, h i hin hik]
    · simp [hin]
  · simp [firstCells, hik]

/-- Two arrays have the same cells from an index on when they agree there. -/
theorem cellsFrom_congr {n k : Nat} {v w : Vector Byte n} (h : ∀ i, (hi : i < n) → k ≤ i → v[i] = w[i]) :
    cellsFrom v k = cellsFrom w k := by
  apply List.ext_getElem?
  intro i
  rw [getElem?_cellsFrom, getElem?_cellsFrom]
  by_cases hin : k + i < n
  · rw [Vector.getElem?_eq_getElem hin, Vector.getElem?_eq_getElem hin, h _ hin (by omega)]
  · simp [hin]

/-! ### The address map -/

/-- Bring the address map at a known address number down to arithmetic. -/
theorem locate_eq {a : Addr} {n : Nat} (h : a.toNat = n) : locate a = locate (BitVec.ofNat 11 n) := by
  rw [← h, BitVec.ofNat_toNat, BitVec.setWidth_eq]

theorem cellAt_some {base k n : Nat} (h : n < k) : cellAt base k (base + n) = some ⟨n, h⟩ := by
  simp [cellAt, h]

theorem cellAt_none {base k n : Nat} (h : n < base ∨ base + k ≤ n) : cellAt base k n = none := by
  simp only [cellAt, dite_eq_right_iff, reduceCtorEq, imp_false]
  omega

theorem cellAt_eq_some {base k n : Nat} {i : Fin k} (h : cellAt base k n = some i) : n = base + i.val := by
  simp only [cellAt, Option.dite_none_right_eq_some, Option.some.injEq] at h
  obtain ⟨h1, rfl⟩ := h
  simp only
  omega

theorem locate_key {n : Nat} (h : n < 255) : locate (BitVec.ofNat 11 (0x100 + n)) = .key ⟨n, h⟩ := by
  have e : (BitVec.ofNat 11 (0x100 + n)).toNat = 0x100 + n := by simp; omega
  simp only [locate, e, cellAt_some h]

theorem locate_din {n : Nat} (h : n < 254) : locate (BitVec.ofNat 11 (0x200 + n)) = .din ⟨n, h⟩ := by
  have e : (BitVec.ofNat 11 (0x200 + n)).toNat = 0x200 + n := by simp; omega
  simp (disch := omega) only [locate, e, Config.keyBase, Config.dinBase, Config.doutBase, Config.leftBase,
    Config.rightBase, Config.keyCells, Config.dbufCells, Config.halfCells, cellAt_some h, cellAt_none]

theorem locate_dout {n : Nat} (h : n < 254) : locate (BitVec.ofNat 11 (0x300 + n)) = .dout ⟨n, h⟩ := by
  have e : (BitVec.ofNat 11 (0x300 + n)).toNat = 0x300 + n := by simp; omega
  simp (disch := omega) only [locate, e, Config.keyBase, Config.dinBase, Config.doutBase, Config.leftBase,
    Config.rightBase, Config.keyCells, Config.dbufCells, Config.halfCells, cellAt_some h, cellAt_none]

theorem locate_left {n : Nat} (h : n < 127) : locate (BitVec.ofNat 11 (0x400 + n)) = .left ⟨n, h⟩ := by
  have e : (BitVec.ofNat 11 (0x400 + n)).toNat = 0x400 + n := by simp; omega
  simp (disch := omega) only [locate, e, Config.keyBase, Config.dinBase, Config.doutBase, Config.leftBase,
    Config.rightBase, Config.keyCells, Config.dbufCells, Config.halfCells, cellAt_some h, cellAt_none]

theorem locate_right {n : Nat} (h : n < 127) : locate (BitVec.ofNat 11 (0x480 + n)) = .right ⟨n, h⟩ := by
  have e : (BitVec.ofNat 11 (0x480 + n)).toNat = 0x480 + n := by simp; omega
  simp (disch := omega) only [locate, e, Config.keyBase, Config.dinBase, Config.doutBase, Config.leftBase,
    Config.rightBase, Config.keyCells, Config.dbufCells, Config.halfCells, cellAt_some h, cellAt_none]

theorem controlLocation_reserved {n : Nat} (h : 8 ≤ n) : controlLocation n = .reserved := by
  unfold controlLocation
  split <;> first | rfl | omega

theorem locate_reserved {a : Addr} (h : ReservedAddr a) : locate a = .reserved := by
  simp only [ReservedAddr] at h
  rw [locate, cellAt_none (by simp only [Config.keyBase, Config.keyCells]; omega),
    cellAt_none (by simp only [Config.dinBase, Config.dbufCells]; omega),
    cellAt_none (by simp only [Config.doutBase, Config.dbufCells]; omega),
    cellAt_none (by simp only [Config.leftBase, Config.halfCells]; omega),
    cellAt_none (by simp only [Config.rightBase, Config.halfCells]; omega)]
  exact controlLocation_reserved (by omega)

/-- The address number of a location that is a register or a cell (R41). -/
def Location.number : Location → Nat
  | .cmd => 0
  | .status => 1
  | .rounds => 2
  | .klen => 3
  | .blen => 4
  | .rnd => 5
  | .phase => 6
  | .ki => 7
  | .key n => 0x100 + n
  | .din n => 0x200 + n
  | .dout n => 0x300 + n
  | .left n => 0x400 + n
  | .right n => 0x480 + n
  | .reserved => 0

/-- A register or cell stands at one address only. -/
theorem number_of_locate {a : Addr} (h : locate a ≠ .reserved) : (locate a).number = a.toNat := by
  revert h
  unfold locate
  split
  · rename_i h
    exact fun _ => (cellAt_eq_some h).symm
  · rename_i h
    exact fun _ => (cellAt_eq_some h).symm
  · rename_i h
    exact fun _ => (cellAt_eq_some h).symm
  · rename_i h
    exact fun _ => (cellAt_eq_some h).symm
  · rename_i h
    exact fun _ => (cellAt_eq_some h).symm
  · unfold controlLocation
    split <;> intro h <;> first | exact absurd rfl h | (simp only [Location.number]; omega)

theorem locate_injective {a a' : Addr} (h : locate a = locate a') (hr : locate a ≠ .reserved) : a = a' := by
  have h1 := number_of_locate hr
  have h2 := number_of_locate (a := a') (h ▸ hr)
  rw [h] at h1
  exact BitVec.eq_of_toNat_eq (h1.symm.trans h2)

/-- What a RW address names. -/
theorem locate_rw {a : Addr} (h : RwAddr a) :
    locate a = .rounds ∨ locate a = .klen ∨ locate a = .blen ∨ (∃ n, locate a = .key n) ∨ ∃ n, locate a = .din n := by
  rcases h with h | h | h | ⟨h, h'⟩ | ⟨h, h'⟩
  · exact .inl (by rw [locate_eq h]; rfl)
  · exact .inr (.inl (by rw [locate_eq h]; rfl))
  · exact .inr (.inr (.inl (by rw [locate_eq h]; rfl)))
  · refine .inr (.inr (.inr (.inl ⟨⟨a.toNat - 0x100, by show _ < 255; omega⟩, ?_⟩)))
    rw [locate_eq (n := 0x100 + (a.toNat - 0x100)) (by omega), locate_key (by omega)]
  · refine .inr (.inr (.inr (.inr ⟨⟨a.toNat - 0x200, by show _ < 254; omega⟩, ?_⟩)))
    rw [locate_eq (n := 0x200 + (a.toNat - 0x200)) (by omega), locate_din (by omega)]

/-- What a RO address names. -/
theorem locate_ro {a : Addr} (h : RoAddr a) :
    locate a = .status ∨ locate a = .rnd ∨ locate a = .phase ∨ locate a = .ki ∨ (∃ n, locate a = .dout n) ∨
      (∃ n, locate a = .left n) ∨ ∃ n, locate a = .right n := by
  rcases h with h | h | h | h | ⟨h, h'⟩ | ⟨h, h'⟩ | ⟨h, h'⟩
  · exact .inl (by rw [locate_eq h]; rfl)
  · exact .inr (.inl (by rw [locate_eq h]; rfl))
  · exact .inr (.inr (.inl (by rw [locate_eq h]; rfl)))
  · exact .inr (.inr (.inr (.inl (by rw [locate_eq h]; rfl))))
  · refine .inr (.inr (.inr (.inr (.inl ⟨⟨a.toNat - 0x300, by show _ < 254; omega⟩, ?_⟩))))
    rw [locate_eq (n := 0x300 + (a.toNat - 0x300)) (by omega), locate_dout (by omega)]
  · refine .inr (.inr (.inr (.inr (.inr (.inl ⟨⟨a.toNat - 0x400, by show _ < 127; omega⟩, ?_⟩)))))
    rw [locate_eq (n := 0x400 + (a.toNat - 0x400)) (by omega), locate_left (by omega)]
  · refine .inr (.inr (.inr (.inr (.inr (.inr ⟨⟨a.toNat - 0x480, by show _ < 127; omega⟩, ?_⟩)))))
    rw [locate_eq (n := 0x480 + (a.toNat - 0x480)) (by omega), locate_right (by omega)]

/-! ### The host's write -/

theorem whenIdle_busy {b : Block} (h : b.busy = true) (f : Block → Block) : b.whenIdle f = b := by
  simp [Block.whenIdle, h]

theorem whenIdle_idle {b : Block} (h : b.busy = false) (f : Block → Block) : b.whenIdle f = f b := by
  simp [Block.whenIdle, h]

theorem hostWrite_busy {b : Block} (h : b.busy = true) (a : Addr) (v : Byte) : b.hostWrite a v = b :=
  whenIdle_busy h _

theorem hostWrite_idle {b : Block} (h : b.busy = false) (a : Addr) (v : Byte) :
    b.hostWrite a v = b.writeAt v (locate a) :=
  whenIdle_idle h _

theorem commandWrite_busy {b : Block} (h : b.busy = true) (v : Byte) : b.commandWrite v = b :=
  whenIdle_busy h _

/-- A write to `CMD` is the command write (R43, R62). -/
theorem hostWrite_cmd (b : Block) (v : Byte) : b.hostWrite cmdAddr v = b.commandWrite v := by
  cases hb : b.busy
  · rw [hostWrite_idle hb]
    rfl
  · rw [hostWrite_busy hb, commandWrite_busy hb]

/-- Everything a command write can do: nothing, or one of the three acceptances on an idle block. -/
theorem commandWrite_cases (b : Block) (v : Byte) :
    b.commandWrite v = b ∨
      (b.busy = false ∧
        (b.commandWrite v = b.acceptGenkeys ∨ (∃ m, b.commandWrite v = b.acceptProcess m) ∨
          ∃ m, b.commandWrite v = b.acceptCrypt m)) := by
  cases hb : b.busy
  · simp only [Block.commandWrite, whenIdle_idle hb]
    (repeat' split) <;> simp
  · exact .inl (commandWrite_busy hb v)

/-- Everything a host write can do: nothing, one acceptance, or one assignment at a RW address, on an idle block. -/
theorem hostWrite_cases (b : Block) (a : Addr) (v : Byte) :
    b.hostWrite a v = b ∨
      (b.busy = false ∧
        ((b.hostWrite a v = b.acceptGenkeys ∨ (∃ m, b.hostWrite a v = b.acceptProcess m) ∨
            ∃ m, b.hostWrite a v = b.acceptCrypt m) ∨
          b.hostWrite a v = { b with rounds := v } ∨ b.hostWrite a v = { b with klen := v } ∨
          b.hostWrite a v = { b with blen := v } ∨
          (∃ n : Fin Config.keyCells, b.hostWrite a v = { b with key := b.key.set n v }) ∨
          ∃ n : Fin Config.dbufCells, b.hostWrite a v = { b with din := b.din.set n v })) := by
  by_cases hb : b.busy = false
  · rw [hostWrite_idle hb]
    unfold Block.writeAt
    split
    · rcases commandWrite_cases b v with h | ⟨-, h⟩
      · exact .inl h
      · exact .inr ⟨hb, .inl h⟩
    · exact .inr ⟨hb, .inr (.inl rfl)⟩
    · exact .inr ⟨hb, .inr (.inr (.inl rfl))⟩
    · exact .inr ⟨hb, .inr (.inr (.inr (.inl rfl)))⟩
    · exact .inr ⟨hb, .inr (.inr (.inr (.inr (.inl ⟨_, rfl⟩))))⟩
    · exact .inr ⟨hb, .inr (.inr (.inr (.inr (.inr ⟨_, rfl⟩))))⟩
    all_goals exact .inl rfl
  · exact .inl (hostWrite_busy (by simpa using hb) a v)

end Sys2Proof.Machine
end

