-- ==== Sys2Proof/Laws/Engine.lean ====
section
/-! SUPPORT. What each engine step can do, said once, and the runs of engine steps from the acceptance of a command to its
end. -/

namespace Sys2Proof.Machine

/-! ### Single steps -/

theorem engineStep_idle {b : Block} (h : b.busy = false) : b.engineStep = b := by simp [Block.engineStep, h]

theorem engineStep_kgen {b : Block} (hb : b.busy = true) (hp : b.phase = .kgen) : b.engineStep = b.kgenStep := by
  simp [Block.engineStep, hb, hp]

theorem engineStep_load {b : Block} (hb : b.busy = true) (hp : b.phase = .load) : b.engineStep = b.loadStep := by
  simp [Block.engineStep, hb, hp]

theorem engineStep_round {b : Block} (hb : b.busy = true) (hp : b.phase = .round) : b.engineStep = b.roundStep := by
  simp [Block.engineStep, hb, hp]

theorem engineStep_store {b : Block} (hb : b.busy = true) (hp : b.phase = .store) : b.engineStep = b.storeStep := by
  simp [Block.engineStep, hb, hp]

theorem lengthOdd_iff (b : Block) : b.lengthOdd = true ↔ b.blen.toNat % 2 = 1 := by
  simp [Block.lengthOdd, BitVec.getLsbD, Nat.testBit_zero]

theorem lengthOdd_false_iff (b : Block) : b.lengthOdd = false ↔ b.blen.toNat % 2 = 0 := by
  rw [← Bool.not_eq_true, lengthOdd_iff]
  omega

theorem toNat_succ {x y : Byte} (h : x.toNat < y.toNat) : (x + 1#8).toNat = x.toNat + 1 := by
  have := y.isLt
  rw [BitVec.toNat_add]
  simp only [BitVec.toNat_ofNat, Nat.reducePow, Nat.reduceMod]
  omega

theorem succ_eq_ofNat (x : Byte) : x + 1#8 = BitVec.ofNat 8 (x.toNat + 1) := by
  rw [← BitVec.ofNat_add_ofNat]
  simp

/-- One key (R77). -/
theorem kgenStep_key {b : Block} (h : b.ki.toNat < b.rounds.toNat) :
    b.kgenStep = { b with key := b.key.set b.ki.toNat b.nextKey (Block.ki_lt h), ki := b.ki + 1#8 } := by
  simp [Block.kgenStep, h]

/-- The exit of a chained command (R77). -/
theorem kgenStep_chain {b : Block} (h : b.rounds.toNat ≤ b.ki.toNat) (hc : b.chain = true) :
    b.kgenStep = { b with klen := b.rounds, phase := .load } := by
  simp [Block.kgenStep, Nat.not_lt.mpr h, hc]

/-- The exit of GENKEYS (R77). -/
theorem kgenStep_end {b : Block} (h : b.rounds.toNat ≤ b.ki.toNat) (hc : b.chain = false) :
    b.kgenStep = { b with klen := b.rounds }.endNormally := by
  simp [Block.kgenStep, Nat.not_lt.mpr h, hc]

theorem loadStep_odd {b : Block} (h : b.blen.toNat % 2 = 1) : b.loadStep = b.raiseMalformedInput := by
  rw [← lengthOdd_iff] at h
  simp [Block.loadStep, h]

/-- The split (R91): the fields it writes. -/
theorem loadStep_even {b : Block} (h : b.blen.toNat % 2 = 0) :
    b.loadStep = { b with left := b.loadStep.left, right := b.loadStep.right, rnd := 0#8, phase := .round } := by
  rw [← lengthOdd_false_iff] at h
  simp [Block.loadStep, h]

theorem loadStep_left {b : Block} (h : b.blen.toNat % 2 = 0) {j : Nat} (hj : j < 127) :
    b.loadStep.left[j] = if j < b.half then b.din[j]'(by show _ < 254; omega) else b.left[j] := by
  rw [← lengthOdd_false_iff] at h
  simp only [Block.loadStep, h, Bool.false_eq_true, if_false, getElem_fillBelow]
  split <;> rfl

theorem loadStep_right {b : Block} (h : b.blen.toNat % 2 = 0) {j : Nat} (hj : j < 127) :
    b.loadStep.right[j] =
      if h : j < b.half then b.din[b.half + j]'(by have := b.half_le; simp only [Config.halfCells] at this; show _ < 254; omega)
      else b.right[j] := by
  rw [← lengthOdd_false_iff] at h
  simp only [Block.loadStep, h, Bool.false_eq_true, if_false, getElem_fillBelow]

/-- One round (R92): the fields it writes. -/
theorem roundStep_round {b : Block} (h : b.rnd.toNat < b.klen.toNat) :
    b.roundStep = { b with left := b.roundStep.left, right := b.roundStep.right, rnd := b.rnd + 1#8 } := by
  simp [Block.roundStep, h]

theorem roundStep_left {b : Block} (h : b.rnd.toNat < b.klen.toNat) {j : Nat} (hj : j < 127) :
    b.roundStep.left[j] = if j < b.half then b.right[j] else b.left[j] := by
  simp only [Block.roundStep, h, dif_pos, getElem_fillBelow]
  split <;> rfl

theorem roundStep_right {b : Block} (h : b.rnd.toNat < b.klen.toNat) {j : Nat} (hj : j < 127) :
    b.roundStep.right[j] =
      if j < b.half then b.left[j] ^^^ roundFunction b.right[j] (b.key[b.keyIndex]'(Block.keyIndex_lt h))
      else b.right[j] := by
  simp only [Block.roundStep, h, dif_pos, getElem_fillBelow]
  split <;> rfl

/-- The loop exit (R92). -/
theorem roundStep_exit {b : Block} (h : b.klen.toNat ≤ b.rnd.toNat) : b.roundStep = { b with phase := .store } := by
  simp [Block.roundStep, Nat.not_lt.mpr h]

theorem storeStep_eq (b : Block) :
    b.storeStep = { b with dout := b.storeStep.dout, busy := false, done := true, phase := .idle } := by
  simp [Block.storeStep, Block.endNormally]

theorem storeStep_dout (b : Block) {j : Nat} (hj : j < 254) :
    b.storeStep.dout[j] =
      if h : j < b.half then b.right[j]'(Nat.lt_of_lt_of_le h b.half_le)
      else if h : j < 2 * b.half then
        b.left[j - b.half]'(by have := b.half_le; omega)
      else b.dout[j] := by
  simp only [Block.storeStep, Block.endNormally_dout, getElem_fillBelow]
  split_ifs <;> first | rfl | (exfalso; omega)

/-! ### The halves the machine holds -/

/-- The halves under way: the cells of `LEFT` and `RIGHT` in use, with `H = BLEN >> 1` (R14). -/
def Block.halves (b : Block) : Halves := ⟨firstCells b.left b.half, firstCells b.right b.half⟩

/-- The cells of an array below a count, as list elements. -/
theorem getElem_firstCells {n k i : Nat} (v : Vector Byte n) (hk : k ≤ n) (h : i < k) :
    (firstCells v k)[i]'(by rw [firstCells_length v hk]; exact h) = v[i] := by
  simp [firstCells]

theorem half_le' (b : Block) : b.half ≤ 127 := b.half_le

theorem halves_balanced (b : Block) : b.halves.Balanced b.half :=
  ⟨firstCells_length _ b.half_le, firstCells_length _ b.half_le⟩

/-- LOAD splits the block (R88, R91). -/
theorem loadStep_halves {b : Block} (h : b.blen.toNat % 2 = 0) :
    b.loadStep.halves = Halves.split (firstCells b.din b.blen.toNat) := by
  have hh : b.loadStep.half = b.half := by rw [loadStep_even h]; rfl
  have hB : 2 * b.half = b.blen.toNat := by simp only [Block.half]; omega
  have hle := half_le' b
  have hlen : (firstCells b.din b.blen.toNat).length = b.blen.toNat :=
    firstCells_length _ (by show _ ≤ 254; omega)
  have e : b.blen.toNat / 2 = b.half := rfl
  simp only [Block.halves, hh, Halves.split, hlen, e, Halves.mk.injEq]
  constructor
  · apply List.ext_getElem?
    intro i
    by_cases hi : i < b.half
    · rw [getElem?_firstCells _ hi, List.getElem?_take_of_lt hi, getElem?_firstCells _ (by omega)]
      rw [Vector.getElem?_eq_getElem (by show _ < 127; omega), Vector.getElem?_eq_getElem (by show _ < 254; omega),
        loadStep_left h (by omega), if_pos hi]
    · simp [firstCells, hi]
  · apply List.ext_getElem?
    intro i
    by_cases hi : i < b.half
    · rw [getElem?_firstCells _ hi, List.getElem?_drop, getElem?_firstCells _ (by omega)]
      rw [Vector.getElem?_eq_getElem (by show _ < 127; omega), Vector.getElem?_eq_getElem (by show _ < 254; omega),
        loadStep_right h (by omega), dif_pos hi]
    · rw [List.getElem?_eq_none (by rw [firstCells_length _ hle]; omega),
        List.getElem?_eq_none (by rw [List.length_drop, hlen]; omega)]

/-- The ROUND step is one round of the function level (R87, R92). -/
theorem roundStep_halves {b : Block} (h : b.rnd.toNat < b.klen.toNat) :
    b.roundStep.halves =
      b.halves.round (roundKey b.mode (firstCells b.key b.klen.toNat) b.rnd.toNat) := by
  have hh : b.roundStep.half = b.half := by rw [roundStep_round h]; rfl
  have hle := half_le' b
  have hk := b.klen.isLt
  have hlen : (firstCells b.key b.klen.toNat).length = b.klen.toNat := firstCells_length _ (by show _ ≤ 255; omega)
  have key : roundKey b.mode (firstCells b.key b.klen.toNat) b.rnd.toNat =
      b.key[b.keyIndex]'(Block.keyIndex_lt h) := by
    rw [roundKey_getElem (by omega)]
    simp only [firstCells, List.getElem_take, Vector.getElem_toList, Block.keyIndex]
    congr 1
    rw [show (List.take b.klen.toNat b.key.toList).length = b.klen.toNat from hlen]
  rw [key]
  simp only [Block.halves, hh, Halves.round, Halves.mk.injEq]
  constructor
  · apply firstCells_congr
    intro i hi hib
    rw [roundStep_left h hi, if_pos hib]
  · apply List.ext_getElem
    · simp [firstCells_length _ hle]
    · intro i hi _
      rw [firstCells_length _ hle] at hi
      rw [List.getElem_zipWith, getElem_firstCells _ hle hi, getElem_firstCells _ hle hi,
        getElem_firstCells _ hle hi, roundStep_right h (by omega), if_pos hi]

/-- STORE joins right half, then left half (R88, R93). -/
theorem storeStep_join (b : Block) :
    firstCells b.storeStep.dout (2 * b.half) = b.halves.right ++ b.halves.left := by
  have hle := half_le' b
  apply List.ext_getElem
  · rw [firstCells_length _ (by show _ ≤ 254; omega), List.length_append, (halves_balanced b).1,
      (halves_balanced b).2]
    omega
  · intro i hi _
    rw [firstCells_length _ (by show _ ≤ 254; omega)] at hi
    rw [getElem_firstCells _ (by show _ ≤ 254; omega) hi, storeStep_dout b (by omega), List.getElem_append]
    simp only [Block.halves, firstCells_length _ hle]
    split
    · rename_i h
      rw [getElem_firstCells _ hle h]
    · exact (getElem_firstCells _ hle (by omega)).symm

theorem storeStep_rest (b : Block) : cellsFrom b.storeStep.dout (2 * b.half) = cellsFrom b.dout (2 * b.half) := by
  apply cellsFrom_congr
  intro i hi hle
  rw [storeStep_dout b hi, dif_neg (by omega), dif_neg (by omega)]

/-! ### Runs of engine steps -/

/-- One more step at the end of a run of engine steps. -/
theorem iterate_succ (n : Nat) (b : Block) : Block.engineStep^[n + 1] b = (Block.engineStep^[n] b).engineStep :=
  Function.iterate_succ_apply' _ _ _

theorem iterate_idle {b : Block} (h : b.busy = false) (n : Nat) : Block.engineStep^[n] b = b :=
  Function.iterate_fixed (engineStep_idle h) n

/-- `i` keys of a key generation that begins at `KI = 0` (R77, R78). -/
theorem iterate_kgen {b : Block} (hb : b.busy = true) (hp : b.phase = .kgen) (hk : b.ki = 0#8) {i : Nat}
    (hi : i ≤ b.rounds.toNat) :
    ∃ key, Block.engineStep^[i] b = { b with key := key, ki := BitVec.ofNat 8 i } ∧
      firstCells key i = generate i ∧ cellsFrom key i = cellsFrom b.key i := by
  induction i with
  | zero => exact ⟨b.key, by rw [← hk]; rfl, by simp [firstCells, generate], rfl⟩
  | succ i ih =>
    obtain ⟨key, h1, h2, h3⟩ := ih (by omega)
    have hr := b.rounds.isLt
    have hi' : (BitVec.ofNat 8 i).toNat = i := by simp only [BitVec.toNat_ofNat]; omega
    have hlt : (BitVec.ofNat 8 i).toNat < b.rounds.toNat := by omega
    refine ⟨key.set i (keyByte i) (by show _ < 255; omega), ?_, ?_, ?_⟩
    · generalize hc : ({ b with key := key, ki := BitVec.ofNat 8 i } : Block) = c at h1
      have hlt' : c.ki.toNat < c.rounds.toNat := by rw [← hc]; exact hlt
      rw [iterate_succ, h1, engineStep_kgen (by rw [← hc]; exact hb) (by rw [← hc]; exact hp), kgenStep_key hlt',
        succ_eq_ofNat]
      subst hc
      simp only [Block.nextKey, hi']
    · rw [generate_succ, ← h2]
      apply List.ext_getElem?
      intro j
      rw [List.getElem?_append, firstCells_length _ (by show _ ≤ 255; omega)]
      by_cases hj : j < i
      · rw [getElem?_firstCells _ (by omega), if_pos hj, getElem?_firstCells _ hj,
          Vector.getElem?_set_ne _ (by omega)]
      · by_cases hji : j = i
        · subst hji
          rw [getElem?_firstCells _ (by omega), Vector.getElem?_set_self]
          simp
        · rw [List.getElem?_eq_none (by rw [firstCells_length _ (by show _ ≤ 255; omega)]; omega), if_neg hj,
            List.getElem?_eq_none (by simp; omega)]
    · apply List.ext_getElem?
      intro j
      have h4 := congrArg (fun l : List Byte => l[j + 1]?) h3
      simp only [getElem?_cellsFrom] at h4 ⊢
      rw [Vector.getElem?_set_ne _ (by omega)]
      have e : i + (j + 1) = i + 1 + j := by omega
      rwa [e] at h4

/-- After LOAD and `i` rounds of a process (R88, R91, R92): what has changed, and the halves of the function level. -/
theorem iterate_rounds {b : Block} (hb : b.busy = true) (hp : b.phase = .load) (he : b.blen.toNat % 2 = 0) {i : Nat}
    (hi : i ≤ b.klen.toNat) :
    ∃ left right,
      Block.engineStep^[i + 1] b =
        { b with left := left, right := right, rnd := BitVec.ofNat 8 i, phase := .round } ∧
      (⟨firstCells left b.half, firstCells right b.half⟩ : Halves) =
        (Halves.split (firstCells b.din b.blen.toNat)).afterRounds b.mode (firstCells b.key b.klen.toNat) i ∧
      cellsFrom left b.half = cellsFrom b.left b.half ∧ cellsFrom right b.half = cellsFrom b.right b.half := by
  induction i with
  | zero =>
    have hs : Block.engineStep^[0 + 1] b = b.loadStep := by
      rw [iterate_succ]; exact engineStep_load hb hp
    have hh : b.loadStep.half = b.half := by rw [loadStep_even he]; rfl
    refine ⟨b.loadStep.left, b.loadStep.right, by rw [hs]; exact loadStep_even he, ?_, ?_, ?_⟩
    · have := loadStep_halves he
      simpa only [Block.halves, hh, Halves.afterRounds] using this
    · exact cellsFrom_congr fun j hj hle => by rw [loadStep_left he hj, if_neg (by omega)]
    · exact cellsFrom_congr fun j hj hle => by rw [loadStep_right he hj, dif_neg (by omega)]
  | succ i ih =>
    obtain ⟨left, right, h1, h2, h3, h4⟩ := ih (by omega)
    have hk := b.klen.isLt
    have hi' : (BitVec.ofNat 8 i).toNat = i := by simp only [BitVec.toNat_ofNat]; omega
    generalize hc : ({ b with left := left, right := right, rnd := BitVec.ofNat 8 i, phase := .round } : Block) = c at h1
    have hlt : c.rnd.toNat < c.klen.toNat := by rw [← hc]; show (BitVec.ofNat 8 i).toNat < b.klen.toNat; omega
    have hcb : c.busy = true := by rw [← hc]; exact hb
    have hcp : c.phase = .round := by rw [← hc]
    have hch : c.half = b.half := by rw [← hc]; rfl
    refine ⟨c.roundStep.left, c.roundStep.right, ?_, ?_, ?_, ?_⟩
    · rw [iterate_succ, h1, engineStep_round hcb hcp, roundStep_round hlt, succ_eq_ofNat]
      subst hc
      simp only [hi']
    · have hr := roundStep_halves hlt
      have hh : c.roundStep.half = b.half := by rw [roundStep_round hlt]; exact hch
      simp only [Block.halves, hh, hch] at hr
      rw [hr, Halves.afterRounds, ← h2]
      subst hc
      simp only [hi']
    · rw [← h3]
      have e : left = c.left := by rw [← hc]
      rw [e]
      exact cellsFrom_congr fun j hj hle => by rw [roundStep_left hlt hj, if_neg (by omega)]
    · rw [← h4]
      have e : right = c.right := by rw [← hc]
      rw [e]
      exact cellsFrom_congr fun j hj hle => by rw [roundStep_right hlt hj, if_neg (by omega)]

/-- A whole process of even length from its LOAD step: `KLEN + 3` engine steps (R94). -/
theorem iterate_process {b : Block} (hb : b.busy = true) (hp : b.phase = .load) (he : b.blen.toNat % 2 = 0) :
    ∃ dout left right,
      Block.engineStep^[b.klen.toNat + 3] b =
        { b with
          dout := dout, left := left, right := right, rnd := b.klen
          busy := false, done := true, phase := .idle } ∧
      process (firstCells b.din b.blen.toNat) (firstCells b.key b.klen.toNat) b.mode =
        .ok (firstCells dout b.blen.toNat) ∧
      firstCells right b.half ++ firstCells left b.half = firstCells dout b.blen.toNat ∧
      cellsFrom dout b.blen.toNat = cellsFrom b.dout b.blen.toNat ∧
      cellsFrom left b.half = cellsFrom b.left b.half ∧ cellsFrom right b.half = cellsFrom b.right b.half := by
  obtain ⟨left, right, h1, h2, h3, h4⟩ := iterate_rounds hb hp he (Nat.le_refl _)
  have hB : 2 * b.half = b.blen.toNat := by simp only [Block.half]; omega
  have hlt := b.blen.isLt
  rw [BitVec.ofNat_toNat, BitVec.setWidth_eq] at h1
  generalize hc : ({ b with left := left, right := right, rnd := b.klen, phase := .store } : Block) = c
  have hs : Block.engineStep^[b.klen.toNat + 3] b = c.storeStep := by
    have e : Block.engineStep^[b.klen.toNat + 2] b = c := by
      generalize hd : ({ b with left := left, right := right, rnd := b.klen, phase := .round } : Block) = d at h1
      rw [iterate_succ, h1, engineStep_round (by rw [← hd]; exact hb) (by rw [← hd]),
        roundStep_exit (by rw [← hd]), ← hc, ← hd]
    rw [iterate_succ, e]
    exact engineStep_store (by rw [← hc]; exact hb) (by rw [← hc])
  have hch : c.half = b.half := by rw [← hc]; rfl
  have hjoin := storeStep_join c
  have hrest := storeStep_rest c
  rw [hch, hB] at hjoin hrest
  have hl : firstCells c.left b.half = firstCells left b.half := by rw [← hc]
  have hr : firstCells c.right b.half = firstCells right b.half := by rw [← hc]
  simp only [Block.halves, hch, hl, hr] at hjoin
  refine ⟨c.storeStep.dout, left, right, ?_, ?_, hjoin.symm, ?_, h3, h4⟩
  · rw [hs, storeStep_eq c, ← hc]
  · have hlen : (firstCells b.din b.blen.toNat).length = b.blen.toNat :=
      firstCells_length _ (by show _ ≤ 254; omega)
    have hklen : (firstCells b.key b.klen.toNat).length = b.klen.toNat :=
      firstCells_length _ (by have := b.klen.isLt; show _ ≤ 255; omega)
    rw [process_even (by omega), hklen, ← h2, hjoin]
  · rw [hrest, ← hc]

/-- A whole key generation from its acceptance: `ROUNDS + 1` engine steps (R78). -/
theorem iterate_genkeys {b : Block} (hb : b.busy = true) (hp : b.phase = .kgen) (hk : b.ki = 0#8) :
    ∃ key,
      Block.engineStep^[b.rounds.toNat + 1] b =
        (if b.chain then { b with key := key, ki := b.rounds, klen := b.rounds, phase := .load }
        else
          { b with
            key := key, ki := b.rounds, klen := b.rounds, phase := .idle, busy := false, done := true }) ∧
      firstCells key b.rounds.toNat = generate b.rounds.toNat ∧
      cellsFrom key b.rounds.toNat = cellsFrom b.key b.rounds.toNat := by
  obtain ⟨key, h1, h2, h3⟩ := iterate_kgen hb hp hk (Nat.le_refl _)
  rw [BitVec.ofNat_toNat, BitVec.setWidth_eq] at h1
  refine ⟨key, ?_, h2, h3⟩
  generalize hd : ({ b with key := key, ki := b.rounds } : Block) = d at h1
  have hle : d.rounds.toNat ≤ d.ki.toNat := by rw [← hd]
  rw [iterate_succ, h1, engineStep_kgen (by rw [← hd]; exact hb) (by rw [← hd]; exact hp)]
  by_cases hc : b.chain = true
  · rw [kgenStep_chain hle (by rw [← hd]; exact hc), ← hd, if_pos hc]
  · rw [kgenStep_end hle (by rw [← hd]; exact Bool.not_eq_true _ ▸ hc), ← hd, if_neg hc]
    rfl

end Sys2Proof.Machine
end

