-- ==== Sys2Proof/Laws/PerInstr.lean ====
section
/-! SUPPORT. The statements made one instruction at a time. -/

namespace Sys2Proof.Laws

/-- What every instruction keeps: its word is a listed word (R63, R66), of format `CMD8` exactly when it is a command (R60). -/
def EncodesListedWord.Statement (i : Instr) : Prop :=
  (encode i).wellFormed = true ∧ (i.isCommand = true ↔ ∃ v, encode i = .cmd8 v)

theorem EncodesListedWord.nop : EncodesListedWord.Statement .nop := ⟨by decide, by simp [Instr.isCommand, encode]⟩

theorem EncodesListedWord.genkeys : EncodesListedWord.Statement .genkeys :=
  ⟨by decide, by simp [Instr.isCommand, encode]⟩

theorem EncodesListedWord.processFwd : EncodesListedWord.Statement .processFwd :=
  ⟨by decide, by simp [Instr.isCommand, encode]⟩

theorem EncodesListedWord.processInv : EncodesListedWord.Statement .processInv :=
  ⟨by decide, by simp [Instr.isCommand, encode]⟩

theorem EncodesListedWord.encrypt : EncodesListedWord.Statement .encrypt :=
  ⟨by decide, by simp [Instr.isCommand, encode]⟩

theorem EncodesListedWord.decrypt : EncodesListedWord.Statement .decrypt :=
  ⟨by decide, by simp [Instr.isCommand, encode]⟩

theorem EncodesListedWord.wr (a : Addr) (d : Byte) : EncodesListedWord.Statement (.wr a d) :=
  ⟨by simp [encode, HostWord.wellFormed, busWe_busWord], by simp [Instr.isCommand, encode]⟩

theorem EncodesListedWord.rd (a : Addr) : EncodesListedWord.Statement (.rd a) :=
  ⟨by simp [encode, HostWord.wellFormed, busData_busWord], by simp [Instr.isCommand, encode]⟩

end Sys2Proof.Laws
end

