-- ==== Sys2Proof/Laws/Run.lean ====
section
/-! SUPPORT. What an instruction, a host turn and a step can do, said once, and a run of the machine over a stretch of turns
brought down to a run of engine steps. -/

namespace Sys2Proof.Machine

/-! ### Instructions -/

/-- Everything an instruction can do: the host's side of the state but the delivered bytes stays, and the block is as it was
or as one host write leaves it. -/
theorem exec_cases {i : Instr} {s t : State} (h : exec i s = .next t) :
    t.script = s.script ∧ t.turns = s.turns ∧
      (t.block = s.block ∨ ∃ a v, t.block = s.block.hostWrite a v) := by
  cases i <;> cases h
  case nop => exact ⟨rfl, rfl, .inl rfl⟩
  case genkeys => exact ⟨rfl, rfl, .inr ⟨cmdAddr, 0x02#8, (hostWrite_cmd _ _).symm ▸ rfl⟩⟩
  case processFwd => exact ⟨rfl, rfl, .inr ⟨cmdAddr, 0x04#8, (hostWrite_cmd _ _).symm ▸ rfl⟩⟩
  case processInv => exact ⟨rfl, rfl, .inr ⟨cmdAddr, 0x05#8, (hostWrite_cmd _ _).symm ▸ rfl⟩⟩
  case encrypt => exact ⟨rfl, rfl, .inr ⟨cmdAddr, 0x06#8, (hostWrite_cmd _ _).symm ▸ rfl⟩⟩
  case decrypt => exact ⟨rfl, rfl, .inr ⟨cmdAddr, 0x07#8, (hostWrite_cmd _ _).symm ▸ rfl⟩⟩
  case wr a v => exact ⟨rfl, rfl, .inr ⟨a, v, rfl⟩⟩
  case rd a => exact ⟨rfl, rfl, .inl rfl⟩

/-- An instruction answers a next state. -/
theorem exec_next (i : Instr) (s : State) : ∃ t, exec i s = .next t := by
  cases i <;> exact ⟨_, rfl⟩

/-! ### Turns -/

/-- Everything a host turn can do to the block and to the order of turns. -/
theorem hostTurn_cases (s : State) :
    ∃ t, s.hostTurn = .next t ∧ t.turns = s.turns ∧
      (t.block = s.block ∨ ∃ a v, t.block = s.block.hostWrite a v) := by
  unfold State.hostTurn
  split
  · exact ⟨s, rfl, rfl, .inl rfl⟩
  · refine ⟨_, rfl, ?_, .inl ?_⟩ <;> simp only [State.waitTurn] <;> split <;> rfl
  · split
    · rename_i i _
      obtain ⟨t, ht⟩ := exec_next i { s with script := _ }
      obtain ⟨-, h2, h3⟩ := exec_cases ht
      exact ⟨t, ht, h2, h3⟩
    · rename_i e _
      refine ⟨_, rfl, ?_⟩
      cases e with
      | reservedCommand v => exact ⟨rfl, .inr ⟨cmdAddr, v, rfl⟩⟩
      | readWithData a d => exact ⟨rfl, .inl rfl⟩

/-- Everything a step can do: an engine turn, a reset turn or a host turn. -/
theorem step_cases {s t : State} (h : step s = .next t) :
    (s.nextTurn = .engine ∧ t = { s with block := s.block.engineStep, turns := s.turns.tail }) ∨
      (s.nextTurn = .reset ∧ t = { s with block := s.block.resetEvent, turns := s.turns.tail }) ∨
      (s.nextTurn = .host ∧ t.turns = s.turns.tail ∧
        (t.block = s.block ∨ ∃ a v, t.block = s.block.hostWrite a v)) := by
  unfold step at h
  split at h
  · rename_i hn
    obtain ⟨u, hu, h1, h2⟩ := hostTurn_cases s.dropTurn
    rw [hu] at h
    cases h
    exact .inr (.inr ⟨hn, h1, h2⟩)
  · cases h
    exact .inl ⟨‹_›, rfl⟩
  · cases h
    exact .inr (.inl ⟨‹_›, rfl⟩)

theorem step_engine {s : State} {ts : List Turn} (h : s.turns = .engine :: ts) :
    step s = .next { s with block := s.block.engineStep, turns := ts } := by
  have hn : s.nextTurn = .engine := by simp [State.nextTurn, h]
  simp [step, hn, State.engineTurn, State.dropTurn, State.onBlock, h]

/-- A host turn on a busy block leaves the block as it is (R26 (g)). -/
theorem step_host_busy {s : State} {ts : List Turn} (h : s.turns = .host :: ts) (hb : s.block.busy = true) :
    ∃ t, step s = .next t ∧ t.turns = ts ∧ t.block = s.block := by
  have hn : s.nextTurn = .host := by simp [State.nextTurn, h]
  obtain ⟨t, ht, h1, h2⟩ := hostTurn_cases s.dropTurn
  refine ⟨t, by rw [step, hn]; exact ht, by rw [h1, State.dropTurn_turns, h]; rfl, ?_⟩
  rcases h2 with h2 | ⟨a, v, h2⟩
  · exact h2
  · rw [h2, State.dropTurn_block, hostWrite_busy hb]

/-! ### Runs -/

theorem run_succ {k : Nat} {s t : State} (h : step s = .next t) : run (k + 1) s = run k t := by
  rw [run, h]

/-- `run` is the host's own run of the machine. -/
theorem run_eq_core_run (k : Nat) (s : State) : run k s = Host.Core.run core k s := by
  induction k generalizing s with
  | zero => rfl
  | succ k ih =>
    rw [run, Host.Core.run.eq_2 core s k]
    have e : Host.Core.step core s = step s := rfl
    rw [e]
    cases step s with
    | next t => exact ih t
    | fault r => rfl
    | refused r => rfl

/-- Over a stretch of turns with `n` engine steps, the last turn an engine step and no reset among them, a block that stays
busy until the last of them takes exactly those `n` engine steps, whatever the host's lines are (R26 (g), R50). -/
theorem run_engineRun {n : Nat} {ts rest : List Turn} {s : State} (hr : EngineRun n ts) (hs : s.turns = ts ++ rest)
    (hb : ∀ k, k < n → (Block.engineStep^[k] s.block).busy = true) :
    ∃ t, run ts.length s = .next t ∧ t.turns = rest ∧ t.block = Block.engineStep^[n] s.block := by
  induction ts generalizing n s with
  | nil => simp [EngineRun] at hr
  | cons x ts ih =>
    obtain ⟨h1, h2, h3⟩ := hr
    cases x with
    | reset => simp at h1
    | engine =>
      have hstep := step_engine (s := s) (ts := ts ++ rest) hs
      obtain ⟨n, rfl⟩ : ∃ m, n = m + 1 := ⟨ts.count .engine, by rw [← h2]; simp⟩
      rw [List.length_cons, run_succ hstep, Function.iterate_succ_apply]
      cases ts with
      | nil =>
        have hn : n = 0 := by simpa using h2.symm
        subst hn
        exact ⟨_, rfl, rfl, rfl⟩
      | cons y ts =>
        refine ih (s := { s with block := s.block.engineStep, turns := y :: ts ++ rest }) ⟨?_, ?_, ?_⟩ rfl ?_
        · simp_all
        · simpa using h2
        · simpa using h3
        · intro k hk
          have := hb (k + 1) (by omega)
          rwa [Function.iterate_succ_apply] at this
    | host =>
      have hn : 0 < n := by
        rw [← h2]
        apply List.count_pos_iff.mpr
        exact List.mem_of_getLast? h3
      obtain ⟨u, hu, hut, hub⟩ := step_host_busy (s := s) (ts := ts ++ rest) hs (hb 0 hn)
      rw [List.length_cons, run_succ hu]
      cases ts with
      | nil => simp at h3
      | cons y ts =>
        rw [← hub]
        refine ih ⟨?_, ?_, ?_⟩ hut ?_
        · simp_all
        · simpa using h2
        · simpa using h3
        · rw [hub]
          exact hb

end Sys2Proof.Machine
end

