-- ==== Sys2Proof/Tests/Slice0.lean ====
section
/-! SUPPORT. Tests of the model on fixed values, each expected value taken from spec/ (the place is named), and for every
obligation with hypotheses a witness: concrete states and operands that meet them, at the ends of each range. -/

namespace Sys2Proof.Tests

open Sys2Proof Sys2Proof.Machine

/-! ## Small states -/

/-- An array that starts with the bytes given, every other cell 0x00. -/
def arr (n : Nat) (bytes : List Byte) : Vector Byte n := Vector.ofFn fun j => bytes.getD j.val 0#8

/-- The block after reset with known bytes in its cells: zeros. -/
def blank : Block :=
  { Block.reset with din := arr 254 [], dout := arr 254 [], key := arr 255 [], left := arr 127 [], right := arr 127 [] }

/-- The same block in the middle of a command. -/
def running (p : PhaseState) : Block := { blank with busy := true, phase := p }

/-- A state of a block, with the turns still to come. -/
def around (b : Block) (turns : List Turn) : State := { block := b, rdata := [], script := [], turns := turns }

theorem around_turns (b : Block) (turns : List Turn) : (around b turns).turns = turns := rfl

/-- A host word as the next line, on the host's turn. -/
def presenting (b : Block) (h : HostWord) : State := { around b [.host] with script := [.word h] }

/-- The block a step leaves. -/
def blockAfter (o : Host.Outcome State Fault Refusal) : Option Block :=
  match o with
  | .next t => some t.block
  | .fault _ => none
  | .refused _ => none

/-- The last byte read after a step. -/
def lastRead (o : Host.Outcome State Fault Refusal) : Option Byte :=
  match o with
  | .next t => t.rdata.head?
  | .fault _ => none
  | .refused _ => none

/-- "Secret!!" (E3) and its two halves, and the keys of E1. -/
def secret : List Byte := [0x53#8, 0x65#8, 0x63#8, 0x72#8, 0x65#8, 0x74#8, 0x21#8, 0x21#8]
def fourKeys : List Byte := [0x2A#8, 0x54#8, 0x7E#8, 0xA8#8]

/-! ## Decoding: words written out from the encodings of spec/30_encoding.md -/

-- CMD8 (R60, R61): bits 7:3 ZERO, bits 2:1 OP, bit 0 MODE; OP 0 NOP, 1 GENKEYS, 2 PROCESS, 3 chained.
theorem test_decode_nop : decode (.cmd8 0b00000000#8) = .ok .nop := by decide
theorem test_decode_genkeys : decode (.cmd8 0b00000010#8) = .ok .genkeys := by decide
theorem test_decode_processFwd : decode (.cmd8 0b00000100#8) = .ok .processFwd := by decide
theorem test_decode_processInv : decode (.cmd8 0b00000101#8) = .ok .processInv := by decide
theorem test_decode_encrypt : decode (.cmd8 0b00000110#8) = .ok .encrypt := by decide
theorem test_decode_decrypt : decode (.cmd8 0b00000111#8) = .ok .decrypt := by decide

-- BUS20 (R66): bit 19 WE, bits 18:8 ADDR, bits 7:0 WDATA. The four fields of each word stand apart below.
theorem test_decode_wr : decode (.bus20 0b1_00111111110_11010110#20) = .ok (.wr 0x1FE#11 0xD6#8) := by decide
theorem test_decode_rd : decode (.bus20 0b0_10010000000_00000000#20) = .ok (.rd 0x480#11) := by decide

-- R63 and R66: the reserved byte and the read word with data are rejected by name.
theorem test_decode_reserved :
    decode (.cmd8 0b00001000#8) = .error (.reservedCommand 0x08#8) ∧
    decode (.cmd8 0b00000011#8) = .error (.reservedCommand 0x03#8) := by decide
theorem test_decode_read_with_data :
    decode (.bus20 0b0_00000000001_00000001#20) = .error (.readWithData 0x001#11 0x01#8) := by decide

-- The opcode table's own numbering: a command row has 8 bits, a transaction row 20 (24 in whole bytes).
theorem test_table_words :
    decodeTableWord 8 0x07 = some .decrypt ∧ decodeTableWord 20 0x80204 = some (.wr 0x002#11 0x04#8) ∧
    decodeTableWord 24 0x80204 = some (.wr 0x002#11 0x04#8) ∧ decodeTableWord 8 0x01 = none ∧
    decodeTableWord 8 0x102 = none ∧ decodeTableWord 20 0x100000 = none := by decide

/-! ## Well-formedness: for each check a term it refuses -/

theorem test_wf_word_reserved_byte :
    (HostWord.cmd8 0x08#8).wellFormed = false ∧ (HostWord.cmd8 0x01#8).wellFormed = false ∧
    (HostWord.cmd8 0x03#8).wellFormed = false ∧ (HostWord.cmd8 0x05#8).wellFormed = true := by decide
theorem test_wf_word_read_with_data :
    (HostWord.bus20 0x00101#20).wellFormed = false ∧ (HostWord.bus20 0x00100#20).wellFormed = true := by decide
theorem test_wf_target_key : (Target.key 255).wellFormed = false ∧ (Target.key 254).wellFormed = true := by decide
theorem test_wf_target_din : (Target.din 254).wellFormed = false ∧ (Target.din 253).wellFormed = true := by decide
theorem test_wf_target_dout : (Target.dout 254).wellFormed = false ∧ (Target.dout 253).wellFormed = true := by decide
theorem test_wf_target_left : (Target.left 127).wellFormed = false ∧ (Target.left 126).wellFormed = true := by decide
theorem test_wf_target_right : (Target.right 127).wellFormed = false ∧ (Target.right 126).wellFormed = true := by decide
theorem test_wf_target_numeric :
    (Target.numeric 0x800).wellFormed = false ∧ (Target.numeric 0x7FF).wellFormed = true := by decide
theorem test_wf_line_wr_rd :
    (ScriptLine.wr (.key 255) 0#8).wellFormed = false ∧ (ScriptLine.rd (.left 127)).wellFormed = false := by decide
theorem test_wf_line_cmd :
    (ScriptLine.cmd (.wr 0#11 0#8)).wellFormed = false ∧ (ScriptLine.cmd (.rd 0#11)).wellFormed = false ∧
    (ScriptLine.cmd .decrypt).wellFormed = true := by decide
theorem test_wf_line_loadBlk_longest : (ScriptLine.loadBlk (List.replicate 254 0x5A#8)).wellFormed = true := by
  simp only [ScriptLine.wellFormed, List.length_replicate]; decide
theorem test_wf_line_loadBlk : (ScriptLine.loadBlk (List.replicate 255 0x5A#8)).wellFormed = false := by
  simp only [ScriptLine.wellFormed, List.length_replicate]; decide
theorem test_wf_line_loadKeys_longest : (ScriptLine.loadKeys (List.replicate 255 0xA5#8)).wellFormed = true := by
  simp only [ScriptLine.wellFormed, List.length_replicate]; decide
theorem test_wf_line_loadKeys : (ScriptLine.loadKeys (List.replicate 256 0xA5#8)).wellFormed = false := by
  simp only [ScriptLine.wellFormed, List.length_replicate]; decide
theorem test_wf_line_readBlk :
    (ScriptLine.readBlk 255).wellFormed = false ∧ (ScriptLine.readBlk 254).wellFormed = true := by decide

/-! ## The instructions, one step each -/

-- R112: nothing, in a running block too.
theorem test_nop : exec .nop (around (running .round) []) = .next (around (running .round) []) := by rfl

-- V36: `STATUS = 04`, `CMD GENKEYS`, before any engine step `RD STATUS` gives 01; PHASE = KGEN with M as it was (R62, R20).
theorem test_genkeys :
    (blockAfter (exec .genkeys (around { blank with err := true, mode := .inverse, ki := 9#8 } []))).map
      (fun b => (b.statusByte, b.phaseByte, b.ki)) = some (0x01#8, 0x09#8, 0x00#8) := by decide +kernel
-- R43: dropped while busy.
theorem test_genkeys_dropped :
    exec .genkeys (around (running .store) []) = .next (around (running .store) []) := by rfl

-- R62: state LOAD is 2; M of INVERSE is 0x08, CH is 0x10 and falls; KI stays.
theorem test_processFwd :
    (blockAfter (exec .processFwd (around { blank with done := true, chain := true, mode := .inverse, ki := 9#8 } []))).map
      (fun b => (b.statusByte, b.phaseByte, b.ki)) = some (0x01#8, 0x02#8, 0x09#8) := by decide +kernel
theorem test_processInv :
    (blockAfter (exec .processInv (around { blank with done := true, rnd := 7#8 } []))).map
      (fun b => (b.statusByte, b.phaseByte, b.rnd)) = some (0x01#8, 0x0A#8, 0x07#8) := by decide +kernel
theorem test_encrypt :
    (blockAfter (exec .encrypt (around { blank with ki := 9#8, mode := .inverse } []))).map
      (fun b => (b.statusByte, b.phaseByte, b.ki)) = some (0x01#8, 0x11#8, 0x00#8) := by decide +kernel
theorem test_decrypt :
    (blockAfter (exec .decrypt (around { blank with ki := 9#8 } []))).map
      (fun b => (b.statusByte, b.phaseByte, b.ki)) = some (0x01#8, 0x19#8, 0x00#8) := by decide +kernel

-- V42: `WR KEY[1], 80` is the word 90180; the last cells of the two arrays the host writes (R41).
theorem test_wr_cells :
    (blockAfter (step (presenting blank (.bus20 0x90180#20)))).map (fun b => b.key.toList.take 3) = some [0#8, 0x80#8, 0#8] ∧
    (blockAfter (exec (.wr 0x2FD#11 0x21#8) (around blank []))).map (fun b => b.din[253]) = some 0x21#8 := by decide +kernel
-- V44: a read-only register keeps its byte.
theorem test_wr_read_only :
    exec (.wr 0x001#11 0xFF#8) (around blank []) = .next (around blank []) ∧
    exec (.wr 0x1FF#11 0x55#8) (around blank []) = .next (around blank []) := ⟨by rfl, by rfl⟩

-- V45: after reset ROUNDS reads 04; V43: a reserved address reads 00.
theorem test_rd :
    lastRead (exec (.rd 0x002#11) State.reset) = some 0x04#8 ∧ lastRead (exec (.rd 0x2FE#11) State.reset) = some 0x00#8 ∧
    lastRead (exec (.rd 0x47E#11) (around { blank with left := blank.left.set 126 0x5A#8 } [])) = some 0x5A#8 := by
  decide +kernel

-- The first step from reset with a table word presented runs it: `CMD GENKEYS` as its byte, and as the bus word 80002 (V42).
theorem test_present_genkeys :
    (blockAfter (step (State.reset.withFetchWord 8 0x02))).map (fun b => b.phaseByte) = some 0x01#8 ∧
    (blockAfter (step (State.reset.withFetchWord 20 0x80002))).map (fun b => b.phaseByte) = some 0x01#8 := by decide +kernel

/-! ## The engine, one step each, and the functions -/

-- V2, V8: the first key is 2A; other cells survive.
theorem test_kgen :
    (fun b : Block => (b.key.toList.take 3, b.ki, b.statusByte))
      { running .kgen with key := arr 255 [0x11#8, 0x22#8, 0x33#8] }.engineStep =
      ([0x2A#8, 0x22#8, 0x33#8], 1#8, 0x01#8) := by decide +kernel
-- V10, step LOAD.
theorem test_load :
    (fun b : Block => (b.left.toList.take 5, b.right.toList.take 5, b.phaseByte))
      { running .load with blen := 8#8, din := arr 254 secret }.engineStep =
      ([0x53#8, 0x65#8, 0x63#8, 0x72#8, 0#8], [0x65#8, 0x74#8, 0x21#8, 0x21#8, 0#8], 0x03#8) := by decide +kernel
-- V30: odd length, `STATUS = 04`, `RND` unchanged.
theorem test_load_odd :
    (fun b : Block => (b.statusByte, b.phase, b.rnd)) { running .load with blen := 7#8, rnd := 3#8 }.engineStep =
      (0x04#8, .idle, 3#8) := by decide +kernel
-- V25: one round, from the old halves.
theorem test_round :
    (fun b : Block => (b.left.toList.take 4, b.right.toList.take 4, b.rnd))
      { running .round with
        blen := 8#8, klen := 1#8, key := arr 255 [0x2A#8]
        left := arr 127 [0x53#8, 0x65#8, 0x63#8, 0x72#8], right := arr 127 [0x65#8, 0x74#8, 0x21#8, 0x21#8] }.engineStep =
      ([0x65#8, 0x74#8, 0x21#8, 0x21#8], [0xDC#8, 0xFB#8, 0x28#8, 0x39#8], 1#8) := by decide +kernel
-- V17, round 0 of INVERSE: the last key first.
theorem test_round_inverse :
    (fun b : Block => (b.left.toList.take 1, b.right.toList.take 1))
      { running .round with
        blen := 2#8, klen := 2#8, mode := .inverse, key := arr 255 [0xFF#8, 0x80#8]
        left := arr 127 [0x12#8], right := arr 127 [0x34#8] }.engineStep = ([0x34#8], [0xA6#8]) := by decide +kernel
-- V10, step STORE: right ++ left.
theorem test_store :
    (fun b : Block => (b.dout.toList.take 9, b.statusByte, b.phaseByte))
      { running .store with
        blen := 8#8, left := arr 127 [0x0F#8, 0x42#8, 0xF3#8, 0x13#8]
        right := arr 127 [0xE2#8, 0xD1#8, 0xC6#8, 0x17#8], dout := arr 254 [0#8, 0#8, 0#8, 0#8, 0#8, 0#8, 0#8, 0#8, 0x77#8] }.engineStep =
      ([0xE2#8, 0xD1#8, 0xC6#8, 0x17#8, 0x0F#8, 0x42#8, 0xF3#8, 0x13#8, 0x77#8], 0x02#8, 0x00#8) := by decide +kernel

-- V4, and selected elements of V6.
theorem test_generate :
    generate 7 = [0x2A#8, 0x54#8, 0x7E#8, 0xA8#8, 0xD2#8, 0xFC#8, 0x26#8] ∧ keyByte 63 = 0x80#8 ∧ keyByte 254 = 0xD6#8 := by decide
-- V10, V12, V14 and V15.
theorem test_process_forward :
    process secret fourKeys .forward = .ok [0xE2#8, 0xD1#8, 0xC6#8, 0x17#8, 0x0F#8, 0x42#8, 0xF3#8, 0x13#8] ∧
    process [0x12#8, 0x34#8] [0xFF#8, 0x80#8] .forward = .ok [0x95#8, 0x21#8] := by decide +kernel
theorem test_process_inverse :
    process secret fourKeys .inverse = .ok [0xC4#8, 0x5B#8, 0x28#8, 0x19#8, 0x53#8, 0xAE#8, 0xF7#8, 0xD7#8] ∧
    process [0x95#8, 0x21#8] [0xFF#8] .inverse = .ok [0xB5#8, 0x21#8] := by decide +kernel
-- V18.
theorem test_process_wraps :
    process [0xFF#8, 0x00#8, 0x80#8, 0x01#8, 0xFF#8, 0x7F#8] [0xFF#8, 0x01#8] .forward =
      .ok [0x01#8, 0x00#8, 0x80#8, 0xFF#8, 0xFE#8, 0xFE#8] ∧
    process [0xFF#8, 0x00#8, 0x80#8, 0x01#8, 0xFF#8, 0x7F#8] [0xFF#8, 0x01#8] .inverse =
      .ok [0xFD#8, 0x00#8, 0x80#8, 0xFD#8, 0x00#8, 0x00#8] := by decide +kernel
-- E9: the wrappers' default is 4 rounds, so they are V10 and V11.
theorem test_wrappers_default :
    encryptFn secret = .ok [0xE2#8, 0xD1#8, 0xC6#8, 0x17#8, 0x0F#8, 0x42#8, 0xF3#8, 0x13#8] ∧
    decryptFn [0xE2#8, 0xD1#8, 0xC6#8, 0x17#8, 0x0F#8, 0x42#8, 0xF3#8, 0x13#8] = .ok secret := by decide +kernel
-- R41: the named targets' addresses (V42), and the lines a pseudo-instruction stands for (R67).
theorem test_script :
    expandScript [.wr .rounds 0x04#8, .cmd .genkeys, .wait, .readBlk 2] =
      [.word (.bus20 0x80204#20), .word (.bus20 0x80002#20), .wait, .word (.bus20 0x30000#20), .word (.bus20 0x30100#20)] ∧
    expandScript [.loadKeys [0xFF#8, 0x80#8]] =
      [.word (.bus20 0x80302#20), .word (.bus20 0x900FF#20), .word (.bus20 0x90180#20)] := by decide
-- R40: the status outputs.
theorem test_status_ports :
    (running .load).statusPorts = ⟨true, false, false⟩ ∧ { blank with err := true }.statusPorts = ⟨false, false, true⟩ := ⟨rfl, rfl⟩

/-! ## Witnesses: states and operands that meet the hypotheses of the obligations -/

/-- The blocks the witnesses stand on meet R26: idle, and one in each state of the engine, at the ends of the ranges. -/
theorem inv_blank : blank.Inv := by constructor <;> decide
theorem inv_ended : { blank with done := true }.Inv := by constructor <;> decide
theorem inv_aborted : { blank with err := true }.Inv := by constructor <;> decide
theorem inv_kgen : { running .kgen with ki := 255#8, rounds := 255#8 }.Inv := by constructor <;> decide
theorem inv_load : { running .load with blen := 255#8 }.Inv := by constructor <;> decide
theorem inv_round : { running .round with blen := 254#8, rnd := 255#8, klen := 255#8 }.Inv := by constructor <;> decide
theorem inv_store : { running .store with blen := 254#8, rnd := 255#8, klen := 255#8 }.Inv := by constructor <;> decide

theorem witness_EncodeOfDecodeIsTheWord :
    decode (.bus20 0x9FED6#20) = .ok (.wr 0x1FE#11 0xD6#8) ∧ decode (.cmd8 0x07#8) = .ok .decrypt := by decide

theorem witness_OpcodeMapOfCommandByte : [0x01#8, 0x03#8, 0x08#8, 0xFF#8].Forall fun v =>
    v.toNat = 0x01 ∨ v.toNat = 0x03 ∨ 0x08 ≤ v.toNat := by decide

theorem witness_StepRunsDecodedWord :
    ((presenting blank (.cmd8 0x04#8)).turns.head? = some .host ∧
      (presenting blank (.cmd8 0x04#8)).script = [.word (.cmd8 0x04#8)]) ∧
    ({ around blank [] with script := [.word (.bus20 0x80204#20)] }.turns = [] ∧ blank.busy = false) ∧
    decode (.cmd8 0x04#8) = .ok .processFwd ∧ decode (.bus20 0x80204#20) = .ok (.wr 0x002#11 0x04#8) :=
  ⟨⟨rfl, rfl⟩, ⟨rfl, rfl⟩, by decide, by decide⟩

theorem witness_PresentedWordRunsNext :
    decodeTableWord 8 0x00 = some .nop ∧ decodeTableWord 20 0xFFFFF = some (.wr 0x7FF#11 0xFF#8) ∧
    decodeTableWord 24 0x7FF00 = some (.rd 0x7FF#11) := by decide

theorem witness_StepTakesEngineAndResetTurns :
    (around (running .kgen) [.engine]).turns = .engine :: [] ∧ (around (running .kgen) [.reset]).turns = .reset :: [] ∧
    ((around (running .kgen) []).turns = [] ∧ (around (running .kgen) []).block.busy = true) ∧
    ((around blank [.host]).turns = .host :: [] ∧ (around blank [.host]).script = []) := ⟨rfl, rfl, ⟨rfl, rfl⟩, rfl, rfl⟩

theorem witness_UnlistedWordsActAsThePorts :
    ((presenting blank (.cmd8 0x08#8)).turns = [.host] ∧ (presenting blank (.cmd8 0x08#8)).script = .word (.cmd8 0x08#8) :: []) ∧
    ((presenting blank (.bus20 0x7FFFF#20)).turns = [.host] ∧
      (presenting blank (.bus20 0x7FFFF#20)).script = .word (.bus20 0x7FFFF#20) :: [] ∧ (0x7FFFF#20).toNat < 0x80000) :=
  ⟨⟨rfl, rfl⟩, rfl, rfl, by decide⟩

theorem witness_WaitReadsStatusUntilIdle :
    ({ around (running .load) [.host] with script := [.wait] }.turns = .host :: [] ∧
      { around (running .load) [.host] with script := [.wait] }.script = .wait :: []) ∧
    ({ around { blank with done := true } [.host] with script := [.wait] }.turns = .host :: [] ∧
      { blank with done := true }.Inv ∧ { blank with done := true }.busy = false) := ⟨⟨rfl, rfl⟩, rfl, inv_ended, rfl⟩

theorem witness_ResetEventSetsRegistersKeepsCells :
    (around { running .round with rnd := 2#8, klen := 3#8, blen := 4#8 } [.reset]).turns = .reset :: [] := rfl

theorem witness_RdReturnsControlRegisters :
    [0x008#11, 0x0FF#11, 0x1FF#11, 0x2FE#11, 0x2FF#11, 0x3FE#11, 0x3FF#11, 0x47F#11, 0x4FF#11, 0x500#11, 0x7FF#11].Forall ReservedAddr := by
  simp [List.Forall, ReservedAddr]

theorem witness_RdReturnsCells : 254 < 255 ∧ 253 < 254 ∧ 126 < 127 := by decide

theorem witness_WrFollowsTheWriteRule :
    (around (running .load) []).block.busy = true ∧ (around blank []).block.busy = false ∧
    [0x001#11, 0x005#11, 0x006#11, 0x007#11, 0x300#11, 0x3FD#11, 0x400#11, 0x47E#11, 0x480#11, 0x4FE#11].Forall RoAddr ∧
    [0x008#11, 0x0FF#11, 0x1FF#11, 0x500#11, 0x7FF#11].Forall ReservedAddr := by
  refine ⟨rfl, rfl, ?_, ?_⟩
  · simp [List.Forall, RoAddr]
  · simp [List.Forall, ReservedAddr]

theorem witness_WrittenByteIsReadBackAndNoOtherChanges :
    (around blank []).block.busy = false ∧
    [0x002#11, 0x003#11, 0x004#11, 0x100#11, 0x1FE#11, 0x200#11, 0x2FD#11].Forall RwAddr ∧ 0x1FF#11 ≠ 0x1FE#11 := by
  refine ⟨rfl, ?_, by decide⟩
  simp [List.Forall, RwAddr]

theorem witness_CommandWriteFollowsTheAcceptanceTable :
    (around (running .store) []).block.busy = true ∧ (around { blank with err := true } []).block.busy = false ∧
    [0x00#8, 0x01#8, 0x03#8, 0x08#8, 0xFF#8].Forall fun v => v.toNat = 0x00 ∨ v.toNat = 0x01 ∨ v.toNat = 0x03 ∨ 0x08 ≤ v.toNat :=
  ⟨rfl, rfl, by decide⟩

theorem witness_CommandIsTheWriteOfItsByte :
    decode (.cmd8 0x06#8) = .ok .encrypt ∧ decode (.cmd8 0xFF#8) = .error (.reservedCommand 0xFF#8) := by decide

/-- Of GenkeysIsAccepted, ProcessIsAccepted and CryptIsAccepted. -/
theorem witness_CommandsAreAccepted :
    State.reset.block.busy = false ∧ (around { blank with err := true, mode := .inverse, chain := true } []).block.busy = false :=
  ⟨rfl, rfl⟩

theorem witness_HostStepsLeaveABusyBlockAlone :
    (presenting (running .round) (.cmd8 0x02#8)).block.busy = true ∧ (∀ a, Instr.genkeys ≠ .rd a) ∧
    (presenting (running .round) (.cmd8 0x02#8)).turns.head? = some .host := ⟨rfl, nofun, rfl⟩

theorem witness_KgenStepFollowsItsRule :
    ((running .kgen).busy = true ∧ (running .kgen).phase = .kgen ∧ (running .kgen).ki = 0#8) ∧
    { running .kgen with ki := 254#8, rounds := 255#8 }.ki.toNat < { running .kgen with ki := 254#8, rounds := 255#8 }.rounds.toNat ∧
    ((255#8).toNat ≤ { running .kgen with ki := 255#8, rounds := 255#8, chain := true }.ki.toNat ∧ (running .kgen).chain = false) :=
  ⟨⟨rfl, rfl, rfl⟩, by decide, by decide, rfl⟩

theorem witness_LoadStepFollowsItsRule :
    ((running .load).busy = true ∧ (running .load).phase = .load) ∧
    { running .load with blen := 255#8 }.blen.toNat % 2 = 1 ∧ { running .load with blen := 1#8 }.blen.toNat % 2 = 1 ∧
    { running .load with blen := 254#8 }.blen.toNat % 2 = 0 ∧ 126 < { running .load with blen := 254#8 }.blen.toNat / 2 ∧
    { running .load with blen := 0#8 }.blen.toNat / 2 ≤ 0 := ⟨⟨rfl, rfl⟩, by decide, by decide, by decide, by decide, by decide⟩

theorem witness_RoundStepFollowsItsRule :
    ((running .round).busy = true ∧ (running .round).phase = .round) ∧
    { running .round with klen := 0#8 }.klen.toNat ≤ (running .round).rnd.toNat ∧
    ({ running .round with klen := 255#8, rnd := 254#8 }.rnd.toNat < { running .round with klen := 255#8, rnd := 254#8 }.klen.toNat ∧
      0 = { running .round with klen := 255#8 }.klen.toNat - 1 - 254) ∧
    ({ running .round with klen := 255#8 }.rnd.toNat < { running .round with klen := 255#8 }.klen.toNat ∧
      254 = { running .round with klen := 255#8 }.klen.toNat - 1 - 0) :=
  ⟨⟨rfl, rfl⟩, by decide, ⟨by decide, by decide⟩, by decide, by decide⟩

theorem witness_StoreStepFollowsItsRule :
    (running .store).busy = true ∧ (running .store).phase = .store ∧
    126 < { running .store with blen := 254#8 }.blen.toNat / 2 ∧ 2 * ({ running .store with blen := 252#8 }.blen.toNat / 2) ≤ 253 :=
  ⟨rfl, rfl, by decide, by decide⟩

theorem witness_EngineWritesOnlyWhatTheStateTableSays :
    (running .kgen).phase ≠ .store ∧ (running .load).phase ≠ .kgen ∧
    ((running .store).phase ≠ .load ∧ (running .store).phase ≠ .round) ∧ blank.busy = false :=
  ⟨by decide, by decide, ⟨by decide, by decide⟩, rfl⟩

theorem witness_HostNeverWritesTheReadOnlyState :
    exec .genkeys (around blank []) = .next (around blank.acceptGenkeys []) ∧ (∀ a v, Instr.genkeys ≠ .wr a v) ∧
    exec (.wr 0x7FF#11 1#8) (around blank []) = .next (around blank []) ∧ (0x7FF#11).toNat ≠ 0 :=
  ⟨rfl, nofun, rfl, by decide⟩

/-- Of TransitionsFollowTheTable, DoneAndErrChangeOnlyAsStated and EveryStepKeepsTheInvariants: a step of each kind from states
that meet R26, and one in which each flag rises or falls. -/
theorem witness_StepsFromStatesThatMeetTheInvariants :
    ((around blank [.reset]).nextTurn = .reset ∧ ∃ t, step (around blank [.reset]) = .next t) ∧
    ((presenting blank (.cmd8 0x02#8)).nextTurn = .host ∧
      step (presenting { blank with done := true } (.cmd8 0x02#8)) = .next (around { blank with done := true }.acceptGenkeys []) ∧
      { blank with done := true }.done = true ∧ { blank with done := true }.acceptGenkeys.done = false) ∧
    ((around (running .load) [.engine]).nextTurn = .engine ∧
      ∃ t, step (around { running .load with blen := 255#8 } [.engine]) = .next t ∧ t.block.err = true) ∧
    (∃ t, step (around { running .store with blen := 254#8, rnd := 255#8, klen := 255#8 } [.engine]) = .next t ∧
      t.block.done = true) :=
  ⟨⟨rfl, _, rfl⟩, ⟨rfl, rfl, rfl, rfl⟩, ⟨rfl, _, rfl, rfl⟩, _, rfl, rfl⟩

/-- Of StatusTakesOnlyFourValues and EachEngineStepBringsTheEndNearer. -/
theorem witness_BlocksThatMeetTheInvariants :
    ({ blank with err := true }.Inv ∧ { blank with err := true }.busy = false) ∧
    ({ running .kgen with ki := 255#8, rounds := 255#8 }.Inv ∧ (running .kgen).busy = true) := ⟨⟨inv_aborted, rfl⟩, inv_kgen, rfl⟩

theorem witness_ReachableStatesMeetTheInvariants :
    ∃ t, run 1 { State.reset with script := [.word (.cmd8 0x04#8)], turns := [.host, .host] } = .next t ∧
      t.block.busy = true ∧ t.turns.head? = some .host := ⟨_, rfl, rfl, rfl⟩

theorem witness_StepCountsOfCommands :
    blank.busy = false ∧
    { blank with blen := 255#8 }.blen.toNat % 2 = 1 ∧ ¬{ blank with blen := 254#8 }.blen.toNat % 2 = 1 ∧
    { blank with rounds := 255#8 }.rounds.toNat + 1 = 256 ∧ 2 * { blank with rounds := 255#8 }.rounds.toNat + 4 = 514 ∧
    (0x08 ≤ (0x08#8).toNat ∧ Instr.wr 0x000#11 0x08#8 = .wr 0x000#11 0x08#8) :=
  ⟨rfl, by decide, by decide, by decide, by decide, by decide, rfl⟩

theorem witness_EveryRunningCommandEnds :
    { running .kgen with ki := 255#8, rounds := 255#8 }.Inv ∧ (around (running .kgen) []).turns = [] ∧
    (around (running .kgen) []).block.busy = true := ⟨inv_kgen, rfl, rfl⟩

/-- Host steps may stand between the engine steps of a stretch, an engine step stands last. -/
theorem witness_EngineRun : EngineRun 3 [.host, .engine, .engine, .host, .host, .engine] ∧ EngineRun 1 [.host, .engine] :=
  ⟨⟨by decide, by decide, by decide⟩, by decide, by decide, by decide⟩

/-- A stretch of three engine steps, and one of four. -/
def threeSteps : List Turn := [.host, .engine, .engine, .host, .host, .engine]
def fourSteps : List Turn := [.engine, .engine, .host, .engine, .engine]

theorem witness_GenkeysAgreesWithGenerate :
    (around { blank with rounds := 2#8 } (threeSteps ++ [Turn.host])).block.busy = false ∧ EngineRun ((2#8).toNat + 1) threeSteps ∧
    (around { blank with rounds := 2#8 } (threeSteps ++ [Turn.host])).turns = threeSteps ++ [Turn.host] ∧
    ((Instr.decrypt = .encrypt ∧ Mode.inverse = .forward) ∨ (Instr.decrypt = .decrypt ∧ Mode.inverse = .inverse)) :=
  ⟨rfl, ⟨by decide, by decide, by decide⟩, around_turns _ _, .inr ⟨rfl, rfl⟩⟩

theorem witness_ProcessAgreesWithFunction :
    (around { blank with blen := 254#8, klen := 0#8 } (threeSteps ++ [])).block.busy = false ∧
    (around { blank with blen := 254#8, klen := 0#8 } (threeSteps ++ [])).turns = threeSteps ++ [] ∧
    ((254#8).toNat % 2 = 0 ∧ EngineRun ((0#8).toNat + 3) threeSteps) ∧
    ((255#8).toNat % 2 = 1 ∧ EngineRun 1 [.host, .engine]) ∧
    ((Instr.processInv = .processFwd ∧ Mode.inverse = .forward) ∨ (Instr.processInv = .processInv ∧ Mode.inverse = .inverse)) :=
  ⟨rfl, around_turns _ _, ⟨by decide, by decide, by decide, by decide⟩, ⟨by decide, witness_EngineRun.2⟩, .inr ⟨rfl, rfl⟩⟩

theorem witness_OddLengthAlwaysFails :
    secret.tail.length % 2 = 1 ∧ { blank with blen := 255#8 }.busy = false ∧ { blank with blen := 255#8 }.blen.toNat % 2 = 1 :=
  ⟨by decide, rfl, by decide⟩

theorem witness_CryptAgreesWithFunction :
    (around { blank with blen := 2#8, rounds := 0#8 } (fourSteps ++ [Turn.reset])).block.busy = false ∧
    (around { blank with blen := 2#8, rounds := 0#8 } (fourSteps ++ [Turn.reset])).turns = fourSteps ++ [Turn.reset] ∧
    ((2#8).toNat % 2 = 0 ∧ EngineRun (2 * (0#8).toNat + 4) fourSteps) ∧
    ((1#8).toNat % 2 = 1 ∧ EngineRun ((1#8).toNat + 2) threeSteps) ∧
    ((Instr.encrypt = .encrypt ∧ Mode.forward = .forward) ∨ (Instr.encrypt = .decrypt ∧ Mode.forward = .inverse)) :=
  ⟨rfl, around_turns _ _, ⟨by decide, by decide, by decide, by decide⟩, ⟨by decide, by decide, by decide, by decide⟩, .inl ⟨rfl, rfl⟩⟩

theorem witness_GenerateFollowsTheFormula : 254 < 255 ∧ 16 ≤ 255 ∧ (generate 255).length = 255 := ⟨by decide, by decide, by decide +kernel⟩

theorem witness_KeyFormulaIsAnAccumulatorOfPeriod128 : 5 < 6 ∧ 126 + 128 < 255 := by decide

/-- The block and keys of V14 as operands of a process. -/
def operands : Block := { blank with blen := 2#8, klen := 2#8, din := arr 254 [0x12#8, 0x34#8], key := arr 255 [0xFF#8, 0x80#8] }

theorem witness_InverseUndoesForward :
    secret.length % 2 = 0 ∧ ([] : List Byte).length % 2 = 0 ∧ operands.busy = false ∧ operands.blen.toNat % 2 = 0 ∧
    firstCells (arr 254 [0x95#8, 0x21#8]) operands.blen.toNat =
      firstCells (Block.engineStep^[operands.klen.toNat + 3] (operands.acceptProcess .forward)).dout operands.blen.toNat := by
  refine ⟨by decide, by decide, rfl, by decide, ?_⟩
  decide +kernel

theorem witness_ForwardUndoesInverse : secret.length % 2 = 0 := by decide

-- One round of `12 34` with the key 2A: f = 5E, so the new right half is 4C (R85, R87).
theorem witness_DecryptUndoesEncrypt :
    let b := { operands with rounds := 1#8 }
    b.busy = false ∧ b.blen.toNat % 2 = 0 ∧
    firstCells (arr 254 [0x4C#8, 0x34#8]) b.blen.toNat =
      firstCells (Block.engineStep^[2 * b.rounds.toNat + 4] (b.acceptCrypt .forward)).dout b.blen.toNat := by
  refine ⟨rfl, by decide, ?_⟩
  decide +kernel

theorem witness_ProcessKeepsTheLength :
    process [0x12#8, 0x34#8] [0xFF#8, 0x80#8] .inverse = .ok [0x91#8, 0xA6#8] ∧
    (running .store).busy = true ∧ (running .store).phase = .store ∧ { running .store with blen := 254#8 }.blen.toNat % 2 = 0 :=
  ⟨by decide +kernel, rfl, rfl, by decide⟩

theorem witness_ZeroRoundsSwapTheHalves :
    secret.length % 2 = 0 ∧ { blank with blen := 254#8 }.busy = false ∧ { blank with blen := 254#8 }.klen = 0#8 ∧
    { blank with blen := 254#8 }.blen.toNat % 2 = 0 := ⟨by decide, rfl, rfl, by decide⟩

theorem witness_EmptyBlockChangesNoCell :
    { blank with klen := 255#8 }.busy = false ∧ { blank with klen := 255#8 }.blen = 0#8 ∧
    255 ≤ { blank with klen := 255#8 }.klen.toNat := ⟨rfl, rfl, by decide⟩

theorem witness_PositionsAreIndependent :
    process [0x01#8, 0x02#8, 0x03#8, 0x04#8] [0#8, 0#8, 0#8] .forward = .ok [0x03#8, 0x04#8, 0x01#8, 0x02#8] ∧
    1 < [0x01#8, 0x02#8, 0x03#8, 0x04#8].length / 2 := ⟨by decide +kernel, by decide⟩

theorem witness_EarlierCommandsDoNotInfluenceAProcess :
    let c := { operands with rnd := 9#8, ki := 3#8, rounds := 8#8, err := true, dout := arr 254 [0x77#8], left := arr 127 [0x55#8] }
    operands.busy = false ∧ c.busy = false ∧ operands.blen = c.blen ∧ operands.klen = c.klen ∧
    firstCells operands.din operands.blen.toNat = firstCells c.din operands.blen.toNat ∧
    firstCells operands.key operands.klen.toNat = firstCells c.key operands.klen.toNat ∧ operands.blen.toNat % 2 = 0 :=
  ⟨rfl, rfl, rfl, rfl, rfl, rfl, by decide⟩

theorem witness_TargetsResolveByTheMap : 0 < 2 ^ 11 ∧ 0x7FF < 2 ^ 11 := by decide

theorem witness_LoadScriptsSetLengthAndCells :
    (around blank []).block.busy = false ∧ (around blank []).turns = [] ∧
    (ScriptLine.loadBlk (List.replicate 254 0x5A#8)).wellFormed = true ∧
    (ScriptLine.loadKeys (List.replicate 255 0xA5#8)).wellFormed = true ∧
    ∀ l : ScriptLine, { around blank [] with script := l.expand ++ [HostLine.wait] }.script = l.expand ++ [HostLine.wait] :=
  ⟨rfl, rfl, test_wf_line_loadBlk_longest, test_wf_line_loadKeys_longest, fun _ => rfl⟩

theorem witness_ReadScriptReadsTheResult :
    (around blank []).block.busy = false ∧ (around blank []).turns = [] ∧ (ScriptLine.readBlk 254).wellFormed = true ∧
    ∀ l : ScriptLine, { around blank [] with script := l.expand ++ [HostLine.wait] }.script = l.expand ++ [HostLine.wait] :=
  ⟨rfl, rfl, by decide, fun _ => rfl⟩

end Sys2Proof.Tests
end

section
/-! PROOFS. Statements of spec/00_scope.md: one step is the turn of the agent whose turn it is (R5). -/

namespace Sys2Proof.Machine

/-! ### Whose turn it is -/

theorem nextTurn_of_turns_cons {s : State} {t : Turn} {ts : List Turn} (h : s.turns = t :: ts) : s.nextTurn = t := by
  simp [State.nextTurn, h]

/-- Where no turn is laid down the engine goes first (assumption log 3). -/
theorem nextTurn_of_turns_nil {s : State} (h : s.turns = []) :
    s.nextTurn = if s.block.busy then .engine else .host := by
  simp [State.nextTurn, h]

/-! ### What a turn does -/

theorem step_of_nextTurn_engine {s : State} (h : s.nextTurn = .engine) :
    step s = .next { s with block := s.block.engineStep, turns := s.turns.tail } := by
  rw [step, h]
  rfl

theorem step_of_nextTurn_reset {s : State} (h : s.nextTurn = .reset) :
    step s = .next { s with block := s.block.resetEvent, turns := s.turns.tail } := by
  rw [step, h]
  rfl

theorem step_of_nextTurn_host {s : State} (h : s.nextTurn = .host) : step s = s.dropTurn.hostTurn := by
  rw [step, h]

theorem hostTurn_of_script_nil {s : State} (h : s.script = []) : s.hostTurn = .next s := by
  simp [State.hostTurn, h]

theorem hostTurn_of_decode_ok {s : State} {w : HostWord} {rest : List HostLine} {i : Instr}
    (hs : s.script = .word w :: rest) (hw : decode w = .ok i) : s.hostTurn = exec i { s with script := rest } := by
  simp [State.hostTurn, hs, hw]

/-! ### The statements -/

/-- Settles O6: both ways to be the host's turn give `nextTurn = .host`, and the host's turn runs the decoded word. -/
theorem stepRunsDecodedWord : Obligations.StepRunsDecodedWord := by
  intro s w rest i hturn hscript hdecode
  have hnext : s.nextTurn = .host := by
    rcases hturn with hhead | ⟨hnil, hidle⟩
    · obtain ⟨ts, hts⟩ := List.head?_eq_some_iff.mp hhead
      exact nextTurn_of_turns_cons hts
    · simp [nextTurn_of_turns_nil hnil, hidle]
  calc step s = s.dropTurn.hostTurn := step_of_nextTurn_host hnext
    _ = exec i { s.dropTurn with script := rest } := hostTurn_of_decode_ok hscript hdecode
    _ = exec i { s with script := rest, turns := s.turns.tail } := rfl

/-- Settles O8: one clause for each agent's turn, and the engine's turn where none is laid down. -/
theorem stepTakesEngineAndResetTurns : Obligations.StepTakesEngineAndResetTurns := by
  intro s ts
  refine ⟨step_engine, fun hreset => ?_, fun hnil hbusy => ?_, fun hhost hscript => ?_⟩
  · rw [step_of_nextTurn_reset (nextTurn_of_turns_cons hreset), hreset, List.tail_cons]
  · have hnext : s.nextTurn = .engine := by simp [nextTurn_of_turns_nil hnil, hbusy]
    rw [step_of_nextTurn_engine hnext, hnil, List.tail_nil]
  · have hdropped : s.dropTurn.script = [] := hscript
    rw [step_of_nextTurn_host (nextTurn_of_turns_cons hhost), hostTurn_of_script_nil hdropped, State.dropTurn, hhost,
      List.tail_cons]

end Sys2Proof.Machine
end

section
/-! PROOFS. Statements of spec/10_state.md: who writes which item of the state (R10 to R21), the invariants of R26, and
the state after reset (R27). -/

namespace Sys2Proof.Machine

/-! ### What one engine step can do -/

/-- Every move the engine has from a block, with the condition under which it makes it (R77, R91, R92, R93, R150). The
cells of the arrays an engine step computes are left open here: the laws of the single steps give them. -/
inductive EngineMove (b : Block) : Block → Prop
  | rest (hrest : b.busy = false ∨ b.phase = .idle) : EngineMove b b
  | keyWritten (hbusy : b.busy = true) (hphase : b.phase = .kgen) (hlt : b.ki.toNat < b.rounds.toNat)
      (key : Vector Byte Config.keyCells) : EngineMove b { b with key := key, ki := b.ki + 1#8 }
  | kgenToLoad (hbusy : b.busy = true) (hphase : b.phase = .kgen) (hchain : b.chain = true) :
      EngineMove b { b with klen := b.rounds, phase := .load }
  | genkeysEnds (hbusy : b.busy = true) (hphase : b.phase = .kgen) (hchain : b.chain = false) :
      EngineMove b { b with klen := b.rounds }.endNormally
  | loadAborts (hbusy : b.busy = true) (hphase : b.phase = .load) (hodd : b.lengthOdd = true) :
      EngineMove b b.raiseMalformedInput
  | loadSplits (hbusy : b.busy = true) (hphase : b.phase = .load) (heven : b.lengthOdd = false)
      (left right : Vector Byte Config.halfCells) :
      EngineMove b { b with left := left, right := right, rnd := 0#8, phase := .round }
  | roundDone (hbusy : b.busy = true) (hphase : b.phase = .round) (hlt : b.rnd.toNat < b.klen.toNat)
      (left right : Vector Byte Config.halfCells) :
      EngineMove b { b with left := left, right := right, rnd := b.rnd + 1#8 }
  | roundToStore (hbusy : b.busy = true) (hphase : b.phase = .round) (hexit : b.klen.toNat ≤ b.rnd.toNat) :
      EngineMove b { b with phase := .store }
  | storeEnds (hbusy : b.busy = true) (hphase : b.phase = .store) (dout : Vector Byte Config.dbufCells) :
      EngineMove b { b with dout := dout, busy := false, done := true, phase := .idle }

theorem engineMove_kgenStep {b : Block} (hbusy : b.busy = true) (hphase : b.phase = .kgen) :
    EngineMove b b.kgenStep := by
  by_cases hlt : b.ki.toNat < b.rounds.toNat
  · exact kgenStep_key hlt ▸ .keyWritten hbusy hphase hlt _
  · have hle := Nat.not_lt.mp hlt
    cases hchain : b.chain with
    | true => exact kgenStep_chain hle hchain ▸ .kgenToLoad hbusy hphase hchain
    | false => exact kgenStep_end hle hchain ▸ .genkeysEnds hbusy hphase hchain

theorem engineMove_loadStep {b : Block} (hbusy : b.busy = true) (hphase : b.phase = .load) :
    EngineMove b b.loadStep := by
  cases hodd : b.lengthOdd with
  | true => exact loadStep_odd ((lengthOdd_iff b).mp hodd) ▸ .loadAborts hbusy hphase hodd
  | false =>
    rw [loadStep_even ((lengthOdd_false_iff b).mp hodd)]
    exact .loadSplits hbusy hphase hodd _ _

theorem engineMove_roundStep {b : Block} (hbusy : b.busy = true) (hphase : b.phase = .round) :
    EngineMove b b.roundStep := by
  by_cases hlt : b.rnd.toNat < b.klen.toNat
  · rw [roundStep_round hlt]
    exact .roundDone hbusy hphase hlt _ _
  · have hexit := Nat.not_lt.mp hlt
    exact roundStep_exit hexit ▸ .roundToStore hbusy hphase hexit

theorem engineMove_storeStep {b : Block} (hbusy : b.busy = true) (hphase : b.phase = .store) :
    EngineMove b b.storeStep := by
  rw [storeStep_eq]
  exact .storeEnds hbusy hphase _

/-- The moves are all that an engine step can do: one state-machine step for each value of `PHASE.STATE`. -/
theorem engineMove_engineStep (b : Block) : EngineMove b b.engineStep := by
  cases hbusy : b.busy with
  | false => exact (engineStep_idle hbusy).symm ▸ .rest (.inl hbusy)
  | true =>
    cases hphase : b.phase with
    | idle =>
      have hstep : b.engineStep = b := by simp [Block.engineStep, hphase]
      exact hstep.symm ▸ .rest (.inr hphase)
    | kgen => exact engineStep_kgen hbusy hphase ▸ engineMove_kgenStep hbusy hphase
    | load => exact engineStep_load hbusy hphase ▸ engineMove_loadStep hbusy hphase
    | round => exact engineStep_round hbusy hphase ▸ engineMove_roundStep hbusy hphase
    | store => exact engineStep_store hbusy hphase ▸ engineMove_storeStep hbusy hphase

/-! ### What an engine step leaves unchanged, and which step writes what (R10 "engine writes") -/

section EngineFrames

variable {b c : Block}

theorem EngineMove.operands_eq (h : EngineMove b c) :
    c.din = b.din ∧ c.rounds = b.rounds ∧ c.blen = b.blen ∧ c.mode = b.mode ∧ c.chain = b.chain := by
  cases h <;> exact ⟨rfl, rfl, rfl, rfl, rfl⟩

theorem EngineMove.dout_eq (h : EngineMove b c) (hne : b.phase ≠ .store) : c.dout = b.dout := by
  cases h with
  | storeEnds _ hphase => exact absurd hphase hne
  | _ => rfl

theorem EngineMove.keys_eq (h : EngineMove b c) (hne : b.phase ≠ .kgen) :
    c.key = b.key ∧ c.klen = b.klen ∧ c.ki = b.ki := by
  cases h with
  | keyWritten _ hphase => exact absurd hphase hne
  | kgenToLoad _ hphase => exact absurd hphase hne
  | genkeysEnds _ hphase => exact absurd hphase hne
  | _ => exact ⟨rfl, rfl, rfl⟩

theorem EngineMove.halves_eq (h : EngineMove b c) (hload : b.phase ≠ .load) (hround : b.phase ≠ .round) :
    c.left = b.left ∧ c.right = b.right ∧ c.rnd = b.rnd := by
  cases h with
  | loadSplits _ hphase => exact absurd hphase hload
  | roundDone _ hphase => exact absurd hphase hround
  | _ => exact ⟨rfl, rfl, rfl⟩

theorem EngineMove.err_eq (h : EngineMove b c) (hne : b.phase ≠ .load) : c.err = b.err := by
  cases h with
  | loadAborts _ hphase => exact absurd hphase hne
  | _ => rfl

/-- `DONE` rises only where a command ends normally: at STORE, or at the KGEN exit of GENKEYS (R18). -/
theorem EngineMove.of_done_rises (h : EngineMove b c) (hbefore : b.done = false) (hafter : c.done = true) :
    c.busy = false ∧ (b.phase = .store ∨ (b.phase = .kgen ∧ b.chain = false)) := by
  have hsame : c.done = b.done → False := fun heq => by simp [heq, hbefore] at hafter
  cases h with
  | genkeysEnds _ hphase hchain => exact ⟨rfl, .inr ⟨hphase, hchain⟩⟩
  | storeEnds _ hphase => exact ⟨rfl, .inl hphase⟩
  | loadAborts => exact absurd hafter Bool.false_ne_true
  | _ => exact (hsame rfl).elim

/-- `ERR` rises only where LOAD finds an odd length (R18, R124). -/
theorem EngineMove.of_err_rises (h : EngineMove b c) (hbefore : b.err = false) (hafter : c.err = true) :
    b.phase = .load ∧ b.lengthOdd = true ∧ c.busy = false := by
  have hsame : c.err = b.err → False := fun heq => by simp [heq, hbefore] at hafter
  cases h with
  | loadAborts _ hphase hodd => exact ⟨hphase, hodd, rfl⟩
  | _ => exact (hsame rfl).elim

end EngineFrames

/-! ### What one host write can do (R10 "host writes") -/

/-- The part of the block that a command runs on, and that the host changes only by the acceptance of a command. -/
structure Block.SameControl (b c : Block) : Prop where
  phase : c.phase = b.phase
  mode : c.mode = b.mode
  chain : c.chain = b.chain
  ki : c.ki = b.ki
  busy : c.busy = b.busy
  done : c.done = b.done
  err : c.err = b.err

/-- A block as the acceptance of a command leaves it (R62): the flags, and the first state of the command. -/
structure Block.JustAccepted (c : Block) : Prop where
  busy : c.busy = true
  done : c.done = false
  err : c.err = false
  start : c.phase = .load ∨ (c.phase = .kgen ∧ c.ki = 0#8)

theorem Block.SameControl.refl (b : Block) : b.SameControl b := ⟨rfl, rfl, rfl, rfl, rfl, rfl, rfl⟩

/-- Only address 0 names `CMD` (R41). -/
theorem locate_ne_cmd {a : Addr} (ha : a.toNat ≠ 0) : locate a ≠ .cmd := by
  intro hcmd
  have hnumber := number_of_locate (a := a) (by simp [hcmd])
  rw [hcmd] at hnumber
  exact ha hnumber.symm

theorem writeAt_sameControl (b : Block) (v : Byte) {l : Location} (hl : l ≠ .cmd) :
    b.SameControl (b.writeAt v l) := by
  cases l with
  | cmd => exact absurd rfl hl
  | _ => exact ⟨rfl, rfl, rfl, rfl, rfl, rfl, rfl⟩

/-- A write that is no command write starts and acknowledges nothing. -/
theorem hostWrite_sameControl (b : Block) {a : Addr} (v : Byte) (ha : a.toNat ≠ 0) :
    b.SameControl (b.hostWrite a v) := by
  cases hbusy : b.busy with
  | true => exact (hostWrite_busy hbusy a v).symm ▸ .refl b
  | false => exact (hostWrite_idle hbusy a v).symm ▸ writeAt_sameControl b v (locate_ne_cmd ha)

theorem commandWrite_eq_or_justAccepted (b : Block) (v : Byte) :
    b.commandWrite v = b ∨ (b.busy = false ∧ (b.commandWrite v).JustAccepted) := by
  rcases commandWrite_cases b v with hsame | ⟨hidle, hgen | ⟨m, hproc⟩ | ⟨m, hcrypt⟩⟩
  · exact .inl hsame
  · exact .inr ⟨hidle, hgen ▸ ⟨rfl, rfl, rfl, .inr ⟨rfl, rfl⟩⟩⟩
  · exact .inr ⟨hidle, hproc ▸ ⟨rfl, rfl, rfl, .inl rfl⟩⟩
  · exact .inr ⟨hidle, hcrypt ▸ ⟨rfl, rfl, rfl, .inr ⟨rfl, rfl⟩⟩⟩

/-- A host write keeps the control state or is an acceptance by an idle block. -/
theorem hostWrite_sameControl_or_justAccepted (b : Block) (a : Addr) (v : Byte) :
    b.SameControl (b.hostWrite a v) ∨ (b.busy = false ∧ (b.hostWrite a v).JustAccepted) := by
  by_cases ha : a.toNat = 0
  · obtain rfl : a = cmdAddr := BitVec.eq_of_toNat_eq ha
    rw [hostWrite_cmd]
    exact (commandWrite_eq_or_justAccepted b v).imp_left fun hsame => by rw [hsame]; exact .refl b
  · exact .inl (hostWrite_sameControl b v ha)

/-- A host turn, whatever its transaction, keeps the control state or is an acceptance by an idle block. -/
theorem sameControl_or_justAccepted_of_hostTurn {b c : Block} (h : c = b ∨ ∃ a v, c = b.hostWrite a v) :
    b.SameControl c ∨ (b.busy = false ∧ c.JustAccepted) := by
  rcases h with rfl | ⟨a, v, rfl⟩
  · exact .inl (.refl c)
  · exact hostWrite_sameControl_or_justAccepted b a v

/-- The results and the working state of a process are the engine's alone. -/
theorem hostWrite_results (b : Block) (a : Addr) (v : Byte) :
    (b.hostWrite a v).dout = b.dout ∧ (b.hostWrite a v).left = b.left ∧ (b.hostWrite a v).right = b.right ∧
      (b.hostWrite a v).rnd = b.rnd := by
  rcases hostWrite_cases b a v with
    h | ⟨-, (h | ⟨m, h⟩ | ⟨m, h⟩) | h | h | h | ⟨n, h⟩ | ⟨n, h⟩⟩ <;>
    rw [h] <;> exact ⟨rfl, rfl, rfl, rfl⟩

/-- The acceptance of a command writes no operand. -/
theorem commandWrite_operands (b : Block) (v : Byte) :
    (b.commandWrite v).din = b.din ∧ (b.commandWrite v).key = b.key ∧ (b.commandWrite v).rounds = b.rounds ∧
      (b.commandWrite v).klen = b.klen ∧ (b.commandWrite v).blen = b.blen := by
  rcases commandWrite_cases b v with h | ⟨-, h | ⟨m, h⟩ | ⟨m, h⟩⟩ <;>
    rw [h] <;> exact ⟨rfl, rfl, rfl, rfl, rfl⟩

theorem exec_wr_block {a : Addr} {v : Byte} {s t : State} (h : exec (.wr a v) s = .next t) :
    t.block = s.block.hostWrite a v := by
  cases h
  rfl

/-- An instruction other than `WR` leaves the block alone or is a command write. -/
theorem exec_block_of_ne_wr {i : Instr} {s t : State} (h : exec i s = .next t) (hi : ∀ a v, i ≠ .wr a v) :
    t.block = s.block ∨ ∃ v, t.block = s.block.commandWrite v := by
  cases i <;> cases h
  case nop => exact .inl rfl
  case rd => exact .inl rfl
  case genkeys => exact .inr ⟨0x02#8, rfl⟩
  case processFwd => exact .inr ⟨0x04#8, rfl⟩
  case processInv => exact .inr ⟨0x05#8, rfl⟩
  case encrypt => exact .inr ⟨0x06#8, rfl⟩
  case decrypt => exact .inr ⟨0x07#8, rfl⟩
  case wr a v => exact absurd rfl (hi a v)

/-! ### The invariants of R26, kept by each kind of step -/

/-- With no command under way, R26 asks only that `DONE` and `ERR` are not both 1. -/
theorem Block.Inv.of_idle {b : Block} (hbusy : b.busy = false) (hphase : b.phase = .idle)
    (hflags : ¬(b.done = true ∧ b.err = true)) : b.Inv := by
  constructor <;> simp [*]

theorem Block.Inv.phase_of_idle {b : Block} (h : b.Inv) (hbusy : b.busy = false) : b.phase = .idle := by
  by_contra hne
  simp [h.busy_iff.mpr hne] at hbusy

theorem Block.Inv.flags_of_busy {b : Block} (h : b.Inv) (hbusy : b.busy = true) : b.done = false ∧ b.err = false := by
  constructor
  · exact Bool.eq_false_iff.mpr fun hdone => h.busy_done ⟨hbusy, hdone⟩
  · exact Bool.eq_false_iff.mpr fun herr => h.busy_err ⟨hbusy, herr⟩

theorem Block.JustAccepted.inv {c : Block} (h : c.JustAccepted) : c.Inv := by
  obtain ⟨hbusy, hdone, herr, hload | ⟨hkgen, hki⟩⟩ := h
  · constructor <;> simp [*]
  · constructor <;> simp [*]

theorem Block.resetEvent_inv (b : Block) : b.resetEvent.Inv := .of_idle rfl rfl (by simp)

theorem EngineMove.inv {b c : Block} (hmove : EngineMove b c) (h : b.Inv) : c.Inv := by
  cases hmove with
  | rest => exact h
  | keyWritten hbusy hphase hlt key =>
    have hki : (b.ki + 1#8).toNat = b.ki.toNat + 1 := toNat_succ hlt
    exact { h with kgen_ki := fun _ => hki ▸ hlt }
  | kgenToLoad hbusy =>
    exact { h with
      busy_iff := by simp [hbusy]
      kgen_ki := nofun
      round_rnd := nofun
      store_rnd := nofun
      even_length := nofun }
  | genkeysEnds hbusy =>
    obtain ⟨-, herr⟩ := h.flags_of_busy hbusy
    exact .of_idle rfl rfl (by simp [herr])
  | loadAborts => exact .of_idle rfl rfl (by simp)
  | loadSplits hbusy hphase heven left right =>
    exact { h with
      busy_iff := by simp [hbusy]
      kgen_ki := nofun
      round_rnd := fun _ => Nat.zero_le _
      store_rnd := nofun
      even_length := fun _ => heven }
  | roundDone hbusy hphase hlt left right =>
    have hrnd : (b.rnd + 1#8).toNat = b.rnd.toNat + 1 := toNat_succ hlt
    exact { h with
      round_rnd := fun _ => hrnd ▸ hlt
      store_rnd := by simp [hphase] }
  | roundToStore hbusy hphase hexit =>
    have heq : b.rnd = b.klen := BitVec.eq_of_toNat_eq (Nat.le_antisymm (h.round_rnd hphase) hexit)
    exact { h with
      busy_iff := by simp [hbusy]
      kgen_ki := nofun
      round_rnd := nofun
      store_rnd := fun _ => heq
      even_length := fun _ => h.even_length (.inl hphase) }
  | storeEnds hbusy =>
    obtain ⟨-, herr⟩ := h.flags_of_busy hbusy
    exact .of_idle rfl rfl (by simp [herr])

theorem hostWrite_inv {b : Block} (h : b.Inv) (a : Addr) (v : Byte) : (b.hostWrite a v).Inv := by
  cases hbusy : b.busy with
  | true => exact (hostWrite_busy hbusy a v).symm ▸ h
  | false =>
    rcases hostWrite_sameControl_or_justAccepted b a v with hsame | ⟨-, haccepted⟩
    · refine .of_idle (hsame.busy.trans hbusy) (hsame.phase.trans (h.phase_of_idle hbusy)) ?_
      rw [hsame.done, hsame.err]
      exact h.done_err
    · exact haccepted.inv

/-- Every step keeps the invariants, whosever turn it is. -/
theorem step_inv {s t : State} (hstep : step s = .next t) (h : s.block.Inv) : t.block.Inv := by
  rcases step_cases hstep with ⟨-, rfl⟩ | ⟨-, rfl⟩ | ⟨-, -, hsame | ⟨a, v, hwrite⟩⟩
  · exact (engineMove_engineStep s.block).inv h
  · exact s.block.resetEvent_inv
  · exact hsame ▸ h
  · exact hwrite ▸ hostWrite_inv h a v

theorem block_reset_inv : Block.reset.Inv := .of_idle rfl rfl (by simp [Block.reset])

/-! ### Invariants of runs -/

/-- What every step keeps holds at the end of every run from a state where it holds. -/
theorem run_keeps {P : State → Prop} (hkeep : ∀ s t, P s → step s = .next t → P t) {k : Nat} {s t : State}
    (hrun : run k s = .next t) (hs : P s) : P t := by
  induction k generalizing s with
  | zero =>
    cases hrun
    exact hs
  | succ k ih =>
    rw [run] at hrun
    split at hrun
    next u hstep => exact ih hrun (hkeep s u hs hstep)
    all_goals cases hrun

/-! ### `DONE` and `ERR` over one step -/

/-- Under R26 no engine step clears `DONE` or `ERR`: a busy block has both at 0, and an idle one has no step. -/
theorem EngineMove.flags_of_true {b c : Block} (hmove : EngineMove b c) (h : b.Inv) :
    (b.done = true → c.done = true) ∧ (b.err = true → c.err = true) := by
  cases hmove with
  | genkeysEnds => exact ⟨fun _ => rfl, id⟩
  | storeEnds => exact ⟨fun _ => rfl, id⟩
  | loadAborts hbusy => exact ⟨fun hdone => absurd ⟨hbusy, hdone⟩ h.busy_done, fun _ => rfl⟩
  | _ => exact ⟨id, id⟩

/-! ### Control registers read by the host (R41, R42) -/

theorem hostRead_status (b : Block) : b.hostRead 0x001#11 = b.statusByte := rfl
theorem hostRead_rounds (b : Block) : b.hostRead 0x002#11 = b.rounds := rfl
theorem hostRead_klen (b : Block) : b.hostRead 0x003#11 = b.klen := rfl
theorem hostRead_blen (b : Block) : b.hostRead 0x004#11 = b.blen := rfl
theorem hostRead_rnd (b : Block) : b.hostRead 0x005#11 = b.rnd := rfl
theorem hostRead_phase (b : Block) : b.hostRead 0x006#11 = b.phaseByte := rfl
theorem hostRead_ki (b : Block) : b.hostRead 0x007#11 = b.ki := rfl

/-! ### The statements -/

/-- Settles O35: the engine's moves, the reset event and the host's writes each keep the invariants. -/
theorem everyStepKeepsTheInvariants : Obligations.EveryStepKeepsTheInvariants := fun _ _ h hstep => step_inv hstep h

/-- Settles O36: the invariants hold after reset and every step keeps them; a host turn on a busy block writes
nothing. -/
theorem reachableStatesMeetTheInvariants : Obligations.ReachableStatesMeetTheInvariants := by
  intro k script turns t hrun
  refine ⟨run_keeps (P := fun s => s.block.Inv) (fun _ _ h hstep => step_inv hstep h) hrun block_reset_inv,
    fun hbusy hhost => ?_⟩
  obtain ⟨ts, hts⟩ := List.head?_eq_some_iff.mp hhost
  obtain ⟨u, hu, -, hblock⟩ := step_host_busy hts hbusy
  exact ⟨u, hu, hblock⟩

/-- Settles O29: one frame for each row of R10, over the moves of the engine. -/
theorem engineWritesOnlyWhatTheStateTableSays : Obligations.EngineWritesOnlyWhatTheStateTableSays := by
  intro b
  have hmove := engineMove_engineStep b
  obtain ⟨hdin, hrounds, hblen, hmode, hchain⟩ := hmove.operands_eq
  exact ⟨hdin, hrounds, hblen, hmode, hchain, hmove.dout_eq, hmove.keys_eq, hmove.halves_eq, hmove.err_eq,
    engineStep_idle⟩

/-- Settles O30: an instruction is at most one host write, and one other than `WR` at most a command write. -/
theorem hostNeverWritesTheReadOnlyState : Obligations.HostNeverWritesTheReadOnlyState := by
  intro i s t hexec
  have hresults : t.block.dout = s.block.dout ∧ t.block.left = s.block.left ∧ t.block.right = s.block.right ∧
      t.block.rnd = s.block.rnd := by
    obtain ⟨-, -, hsame | ⟨a, v, hwrite⟩⟩ := exec_cases hexec
    · exact hsame ▸ ⟨rfl, rfl, rfl, rfl⟩
    · exact hwrite ▸ hostWrite_results s.block a v
  obtain ⟨hdout, hleft, hright, hrnd⟩ := hresults
  refine ⟨hdout, hleft, hright, hrnd, fun hi => ?_, fun a v hi ha => ?_⟩
  · rcases exec_block_of_ne_wr hexec hi with hsame | ⟨v, hcommand⟩
    · exact hsame ▸ ⟨rfl, rfl, rfl, rfl, rfl⟩
    · exact hcommand ▸ commandWrite_operands s.block v
  · subst hi
    obtain ⟨hphase, hmode, hchain, hki, hbusy, hdone, herr⟩ := hostWrite_sameControl s.block v ha
    rw [exec_wr_block hexec]
    exact ⟨hphase, hmode, hchain, hki, hbusy, hdone, herr⟩

/-- Settles O32: the flags rise only in the engine's last moves, and fall only at an acceptance or at reset. -/
theorem doneAndErrChangeOnlyAsStated : Obligations.DoneAndErrChangeOnlyAsStated := by
  intro s t h hstep
  rcases step_cases hstep with ⟨hturn, rfl⟩ | ⟨hturn, rfl⟩ | ⟨hturn, -, hblock⟩
  · have hmove := engineMove_engineStep s.block
    obtain ⟨hdone, herr⟩ := hmove.flags_of_true h
    refine ⟨?_, fun hbefore hafter => ⟨hturn, hmove.of_done_rises hbefore hafter⟩, fun hbefore hafter => ?_⟩
    · rintro (⟨hbefore, hafter⟩ | ⟨hbefore, hafter⟩)
      · exact absurd (hdone hbefore) (Bool.eq_false_iff.mp hafter)
      · exact absurd (herr hbefore) (Bool.eq_false_iff.mp hafter)
    · obtain ⟨hload, hodd, hidle⟩ := hmove.of_err_rises hbefore hafter
      exact ⟨hturn, hload, (lengthOdd_iff _).mp hodd, hidle⟩
  · exact ⟨fun _ => .inl hturn, fun _ hafter => by simp at hafter, fun _ hafter => by simp at hafter⟩
  · rcases sameControl_or_justAccepted_of_hostTurn hblock with hsame | ⟨hidle, haccepted⟩
    · simp +contextual [hsame.done, hsame.err]
    · refine ⟨fun _ => .inr ⟨hturn, hidle, haccepted.busy⟩, fun _ hafter => ?_, fun _ hafter => ?_⟩
      · simp [haccepted.done] at hafter
      · simp [haccepted.err] at hafter

/-- Settles O13: each register's read, at its value after reset (R27). -/
theorem resetStateRegisters : Obligations.ResetStateRegisters :=
  ⟨hostRead_status _, hostRead_rounds _, hostRead_klen _, hostRead_blen _, hostRead_rnd _,
    (hostRead_phase _).trans (by decide), hostRead_ki _, rfl, rfl, rfl⟩

/-- Settles O33: of the three flags at most one is 1. -/
theorem statusTakesOnlyFourValues : Obligations.StatusTakesOnlyFourValues := by
  intro b h
  cases hbusy : b.busy with
  | true =>
    obtain ⟨hdone, herr⟩ := h.flags_of_busy hbusy
    exact .inr (.inl (by simp [Block.statusByte, hbusy, hdone, herr]))
  | false =>
    cases hdone : b.done with
    | true =>
      have herr : b.err = false := Bool.eq_false_iff.mpr fun herr => h.done_err ⟨hdone, herr⟩
      exact .inr (.inr (.inl (by simp [Block.statusByte, hbusy, hdone, herr])))
    | false =>
      cases herr : b.err with
      | true => exact .inr (.inr (.inr (by simp [Block.statusByte, hbusy, hdone, herr])))
      | false => exact .inl (by simp [Block.statusByte, hbusy, hdone, herr])

/-- Settles O34: the idle case of R26, both flags 0. -/
theorem resetMeetsTheInvariants : Obligations.ResetMeetsTheInvariants := block_reset_inv

end Sys2Proof.Machine
end

section
/-! PROOFS. Statements of spec/20_memory.md: the address map (R41), the host's reads (R42, R45) and writes (R43, R48), and
the script lines that stand for them (R67). -/

namespace Sys2Proof.Machine

/-! ### A transaction at a known location -/

theorem exec_rd_of_locate {a : Addr} {l : Location} (hl : locate a = l) (s : State) :
    exec (.rd a) s = .next { s with rdata := s.block.valueAt l :: s.rdata } := by
  subst hl
  rfl

theorem exec_wr_of_busy {s : State} (hbusy : s.block.busy = true) (a : Addr) (v : Byte) :
    exec (.wr a v) s = .next s := by
  simp [exec, execWr, State.onBlock, hostWrite_busy hbusy]

theorem exec_wr_of_locate {s : State} (hidle : s.block.busy = false) {a : Addr} {l : Location} (hl : locate a = l)
    (v : Byte) : exec (.wr a v) s = .next { s with block := s.block.writeAt v l } := by
  simp [exec, execWr, State.onBlock, hostWrite_idle hidle, hl]

/-! ### The packed registers as numbers (R18, R20) -/

theorem toNat_append_eq_mul_add {m n : Nat} (x : BitVec m) (y : BitVec n) :
    (x ++ y).toNat = x.toNat * 2 ^ n + y.toNat := by
  rw [BitVec.toNat_append, ← Nat.shiftLeft_add_eq_or_of_lt y.isLt, Nat.shiftLeft_eq]

theorem statusByte_toNat (b : Block) :
    b.statusByte.toNat = b.busy.toNat + 2 * b.done.toNat + 4 * b.err.toNat := by
  simp only [Block.statusByte, toNat_append_eq_mul_add, BitVec.toNat_ofBool, BitVec.toNat_ofNat]
  omega

theorem phaseByte_toNat (b : Block) :
    b.phaseByte.toNat = b.phase.code.toNat + 8 * (modeBit b.mode).toNat + 16 * b.chain.toNat := by
  simp only [Block.phaseByte, toNat_append_eq_mul_add, BitVec.toNat_ofBool, BitVec.toNat_ofNat]
  omega

/-! ### Writes to the read-write locations, and to the others (R43) -/

/-- The locations the host may read and write (R41 "RW"). -/
def Location.isRw : Location → Bool
  | .rounds | .klen | .blen | .key _ | .din _ => true
  | _ => false

theorem locate_isRw {a : Addr} (ha : RwAddr a) : (locate a).isRw = true := by
  rcases locate_rw ha with h | h | h | ⟨n, h⟩ | ⟨n, h⟩ <;> rw [h] <;> rfl

theorem writeAt_of_not_rw (b : Block) (v : Byte) {l : Location} (hcmd : l ≠ .cmd) (hl : l.isRw = false) :
    b.writeAt v l = b := by
  cases l with
  | cmd => exact absurd rfl hcmd
  | rounds | klen | blen | key | din => cases hl
  | _ => rfl

/-- A RO or reserved address names neither `CMD` nor a RW location. -/
theorem locate_ro_or_reserved {a : Addr} (ha : RoAddr a ∨ ReservedAddr a) :
    locate a ≠ .cmd ∧ (locate a).isRw = false := by
  rcases ha with hro | hres
  · rcases locate_ro hro with h | h | h | h | ⟨n, h⟩ | ⟨n, h⟩ | ⟨n, h⟩ <;> rw [h] <;> exact ⟨nofun, rfl⟩
  · rw [locate_reserved hres]
    exact ⟨nofun, rfl⟩

section RwLocations

variable {l : Location} (b : Block) (v : Byte) (hl : l.isRw = true)
include hl

theorem valueAt_writeAt_same : (b.writeAt v l).valueAt l = v := by
  cases l with
  | rounds | klen | blen => rfl
  | key n | din n => simp [Block.writeAt, Block.valueAt]
  | _ => cases hl

theorem valueAt_writeAt_of_ne {l' : Location} (hne : l' ≠ l) : (b.writeAt v l).valueAt l' = b.valueAt l' := by
  cases l with
  | rounds =>
    cases l' with
    | rounds => exact absurd rfl hne
    | _ => rfl
  | klen =>
    cases l' with
    | klen => exact absurd rfl hne
    | _ => rfl
  | blen =>
    cases l' with
    | blen => exact absurd rfl hne
    | _ => rfl
  | key n =>
    cases l' with
    | key m =>
      have hcell : (n : Nat) ≠ m := fun h => hne (congrArg Location.key (Fin.ext h.symm))
      exact Vector.getElem_set_ne n.isLt m.isLt hcell
    | _ => rfl
  | din n =>
    cases l' with
    | din m =>
      have hcell : (n : Nat) ≠ m := fun h => hne (congrArg Location.din (Fin.ext h.symm))
      exact Vector.getElem_set_ne n.isLt m.isLt hcell
    | _ => rfl
  | _ => cases hl

theorem writeAt_writeAt_same : (b.writeAt v l).writeAt v l = b.writeAt v l := by
  cases l with
  | rounds | klen | blen => rfl
  | key n | din n => simp [Block.writeAt]
  | _ => cases hl

end RwLocations

/-! ### A run of reads on an idle block (R45, R67) -/

theorem decode_encode_rd (a : Addr) : decode (encode (.rd a)) = .ok (.rd a) := by
  simp [encode, decode, decodeBus, busWe_busWord, busAddr_busWord, busData_busWord]

theorem step_rd {s : State} (hidle : s.block.busy = false) (hturns : s.turns = []) {a : Addr} {rest : List HostLine}
    (hscript : s.script = line (.rd a) :: rest) :
    step s = .next { s with script := rest, rdata := s.block.hostRead a :: s.rdata } := by
  rw [stepRunsDecodedWord s _ rest _ (.inr ⟨hturns, hidle⟩) hscript (decode_encode_rd a),
    exec_rd_of_locate rfl, hturns]
  rfl

/-- Reads with no turn laid down, on an idle block, deliver what stands at their addresses, in order (R45). -/
theorem run_reads {s : State} (hidle : s.block.busy = false) (hturns : s.turns = []) {addrs : List Addr}
    {rest : List HostLine} (hscript : s.script = (addrs.map fun a => line (.rd a)) ++ rest) :
    run addrs.length s =
      .next { s with script := rest, rdata := (addrs.map s.block.hostRead).reverse ++ s.rdata } := by
  induction addrs generalizing s with
  | nil =>
    subst hscript
    rfl
  | cons a addrs ih =>
    have hrest := ih (s := { s with script := _, rdata := s.block.hostRead a :: s.rdata }) hidle hturns rfl
    rw [List.length_cons, run_succ (step_rd hidle hturns hscript)]
    simpa using hrest

theorem hostRead_dout (b : Block) {k : Nat} (hk : k < 254) :
    b.hostRead (Target.dout k).addr = b.dout[k] :=
  congrArg b.valueAt (locate_dout hk)

theorem map_hostRead_dout (b : Block) {n : Nat} (hn : n ≤ 254) :
    (List.range n).map (fun k => b.hostRead (Target.dout k).addr) = firstCells b.dout n := by
  refine List.ext_getElem (by simp [firstCells_length b.dout hn]) fun k hk _ => ?_
  have hkn : k < n := by simpa using hk
  simp [hostRead_dout b (Nat.lt_of_lt_of_le hkn hn), firstCells]

/-! ### The statements -/

/-- Settles O15: the address map takes base plus `n` to cell `n` of its array. -/
theorem rdReturnsCells : Obligations.RdReturnsCells := fun s =>
  ⟨fun _ h => exec_rd_of_locate (locate_key h) s, fun _ h => exec_rd_of_locate (locate_din h) s,
    fun _ h => exec_rd_of_locate (locate_dout h) s, fun _ h => exec_rd_of_locate (locate_left h) s,
    fun _ h => exec_rd_of_locate (locate_right h) s⟩

/-- Settles O16: a busy block drops the write; on an idle block it is the assignment at the location the address
names. -/
theorem wrFollowsTheWriteRule : Obligations.WrFollowsTheWriteRule := by
  intro s v
  refine ⟨fun hbusy a => exec_wr_of_busy hbusy a v, fun hidle => ?_⟩
  refine ⟨exec_wr_of_locate hidle rfl v, exec_wr_of_locate hidle rfl v, exec_wr_of_locate hidle rfl v,
    exec_wr_of_locate hidle rfl v, fun _ h => exec_wr_of_locate hidle (locate_key h) v,
    fun _ h => exec_wr_of_locate hidle (locate_din h) v, fun a ha => ?_⟩
  obtain ⟨hcmd, hro⟩ := locate_ro_or_reserved ha
  rw [exec_wr_of_locate hidle rfl, writeAt_of_not_rw s.block v hcmd hro]

/-- Settles O17: a write at a RW location is an assignment there, and each address names a location of its own. -/
theorem writtenByteIsReadBackAndNoOtherChanges : Obligations.WrittenByteIsReadBackAndNoOtherChanges := by
  intro s a v hidle ha
  have hrw := locate_isRw ha
  have hcmd : locate a ≠ .cmd := fun h => by simp [h, Location.isRw] at hrw
  have hres : locate a ≠ .reserved := fun h => by simp [h, Location.isRw] at hrw
  refine ⟨_, exec_wr_of_locate hidle rfl v, valueAt_writeAt_same s.block v hrw, fun a' hne => ?_, ?_⟩
  · exact valueAt_writeAt_of_ne s.block v hrw fun h => hne (locate_injective h.symm hres).symm
  · have hidle' : (s.block.writeAt v (locate a)).busy = false :=
      (writeAt_sameControl s.block v hcmd).busy.trans hidle
    rw [exec_wr_of_locate hidle' rfl, writeAt_writeAt_same s.block v hrw]

/-- Settles O56: `READBLK n` is a run of reads of the addresses of `DOUT[0..n)`. -/
theorem readScriptReadsTheResult : Obligations.ReadScriptReadsTheResult := by
  intro s n rest hidle hturns hn hscript
  have hreads := run_reads (addrs := (List.range n).map fun k => (Target.dout k).addr) hidle hturns
    (by simpa [ScriptLine.expand, Function.comp_def] using hscript)
  have hcells := map_hostRead_dout s.block (of_decide_eq_true hn)
  simpa [Function.comp_def, hcells] using hreads

/-- Settles O14: the value at each control location, and 0x00 at `CMD` and at the reserved addresses. -/
theorem rdReturnsControlRegisters : Obligations.RdReturnsControlRegisters := fun s =>
  ⟨⟨_, exec_rd_of_locate rfl s, statusByte_toNat s.block⟩, ⟨_, exec_rd_of_locate rfl s, phaseByte_toNat s.block⟩,
    exec_rd_of_locate rfl s, exec_rd_of_locate rfl s, exec_rd_of_locate rfl s, exec_rd_of_locate rfl s,
    exec_rd_of_locate rfl s, exec_rd_of_locate rfl s, fun _ h => exec_rd_of_locate (locate_reserved h) s⟩

/-- Settles O54: the registers' addresses are fixed, each array's cells stand from its base on, and a number below 2048
fits the 11 pins. -/
theorem targetsResolveByTheMap : Obligations.TargetsResolveByTheMap :=
  ⟨rfl, rfl, rfl, rfl, rfl, rfl, rfl, rfl, fun n => locate_key n.isLt, fun n => locate_din n.isLt,
    fun n => locate_dout n.isLt, fun n => locate_left n.isLt, fun n => locate_right n.isLt,
    fun _ h => Nat.mod_eq_of_lt h⟩

end Sys2Proof.Machine
end

section
/-! PROOFS. Statements of spec/30_encoding.md: the words of a listing (R60 to R63, R66), how the host's lines are
carried out (R63, R66, R67), the acceptance of commands (R62), and the load lines of a script (R67). -/

namespace Sys2Proof.Machine

/-! ### Words and instructions (R60, R61, R63, R66) -/

/-- The reserved command bytes, as the opcode map lists them (R61, R63). -/
def ReservedByte (v : Byte) : Prop := v.toNat = 0x01 ∨ v.toNat = 0x03 ∨ 0x08 ≤ v.toNat

/-- Every command byte is the word of a command or reserved. -/
theorem exists_encode_or_reservedByte (v : Byte) : (∃ i, encode i = .cmd8 v) ∨ ReservedByte v := by
  by_cases hv : ReservedByte v
  · exact .inr hv
  · have hbyte : v.toNat = 0 ∨ v.toNat = 2 ∨ v.toNat = 4 ∨ v.toNat = 5 ∨ v.toNat = 6 ∨ v.toNat = 7 := by
      simp only [ReservedByte] at hv
      omega
    have hencode {k : Byte} {i : Instr} (hi : encode i = .cmd8 k) (hk : v.toNat = k.toNat) :
        ∃ i, encode i = .cmd8 v := ⟨i, BitVec.eq_of_toNat_eq hk ▸ hi⟩
    rcases hbyte with h | h | h | h | h | h
    · exact .inl (hencode (i := .nop) rfl h)
    · exact .inl (hencode (i := .genkeys) rfl h)
    · exact .inl (hencode (i := .processFwd) rfl h)
    · exact .inl (hencode (i := .processInv) rfl h)
    · exact .inl (hencode (i := .encrypt) rfl h)
    · exact .inl (hencode (i := .decrypt) rfl h)

theorem ReservedByte.ne {v k : Byte} (hv : ReservedByte v)
    (hk : k.toNat = 0 ∨ k.toNat = 2 ∨ (4 ≤ k.toNat ∧ k.toNat ≤ 7)) : v ≠ k := by
  rintro rfl
  simp only [ReservedByte] at hv
  omega

theorem decode_of_reservedByte {v : Byte} (hv : ReservedByte v) : decode (.cmd8 v) = .error (.reservedCommand v) := by
  simp [decode, decodeCommand, hv.ne]

theorem commandListed_iff (v : Byte) : commandListed v = true ↔ ¬ReservedByte v := by
  have := v.isLt
  simp only [commandListed, ReservedByte, Bool.and_eq_true, Bool.or_eq_true, Bool.not_eq_true',
    beq_iff_eq, decide_eq_true_eq, decide_eq_false_iff_not, BitVec.toNat_ofNat, ← BitVec.toNat_inj,
    BitVec.extractLsb'_toNat, BitVec.getLsbD, Nat.testBit_eq_decide_div_mod_eq, Nat.shiftRight_eq_div_pow]
  omega

theorem decode_encode_wr (a : Addr) (d : Byte) : decode (encode (.wr a d)) = .ok (.wr a d) := by
  simp [encode, decode, decodeBus, busWe_busWord, busAddr_busWord, busData_busWord]

section BusWord

variable {w : BitVec 20}

theorem decode_of_busWe_true (hwe : busWe w = true) : decode (.bus20 w) = .ok (.wr (busAddr w) (busData w)) := by
  simp [decode, decodeBus, hwe]

theorem decode_of_busData_zero (hwe : busWe w = false) (hdata : busData w = 0#8) :
    decode (.bus20 w) = .ok (.rd (busAddr w)) := by
  simp [decode, decodeBus, hwe, hdata]

theorem decode_of_busData_ne_zero (hwe : busWe w = false) (hdata : busData w ≠ 0#8) :
    decode (.bus20 w) = .error (.readWithData (busAddr w) (busData w)) := by
  simp [decode, decodeBus, hwe, hdata]

theorem encode_of_decode_bus {i : Instr} (h : decode (.bus20 w) = .ok i) : encode i = .bus20 w := by
  have hfields := busWord_fields w
  cases hwe : busWe w with
  | true =>
    cases h.symm.trans (decode_of_busWe_true hwe)
    rw [encode, ← hwe, hfields]
  | false =>
    by_cases hdata : busData w = 0#8
    · cases h.symm.trans (decode_of_busData_zero hwe hdata)
      rw [encode, ← hdata, ← hwe, hfields]
    · cases h.symm.trans (decode_of_busData_ne_zero hwe hdata)

end BusWord

theorem encode_wellFormed (i : Instr) : (encode i).wellFormed = true := by
  cases i with
  | nop => exact Laws.EncodesListedWord.nop.1
  | genkeys => exact Laws.EncodesListedWord.genkeys.1
  | processFwd => exact Laws.EncodesListedWord.processFwd.1
  | processInv => exact Laws.EncodesListedWord.processInv.1
  | encrypt => exact Laws.EncodesListedWord.encrypt.1
  | decrypt => exact Laws.EncodesListedWord.decrypt.1
  | wr a d => exact (Laws.EncodesListedWord.wr a d).1
  | rd a => exact (Laws.EncodesListedWord.rd a).1

/-- Decoding gives each instruction back: the commands by the opcode map, the two transactions by their fields. -/
theorem decode_encode (i : Instr) : decode (encode i) = .ok i := by
  cases i with
  | wr a d => exact decode_encode_wr a d
  | rd a => exact decode_encode_rd a
  | _ => rfl

/-- A command byte is a command's own word or reserved, and a bus word is made of its fields. -/
theorem encode_of_decode {w : HostWord} {i : Instr} (h : decode w = .ok i) : encode i = w := by
  cases w with
  | bus20 w => exact encode_of_decode_bus h
  | cmd8 v =>
    rcases exists_encode_or_reservedByte v with ⟨j, hj⟩ | hv
    · have hji : decode (.cmd8 v) = .ok j := hj ▸ decode_encode j
      cases h.symm.trans hji
      exact hj
    · cases h.symm.trans (decode_of_reservedByte hv)

theorem reservedByte_of_decode_error {v : Byte} {e : DecodeError} (h : decode (.cmd8 v) = .error e) : ReservedByte v := by
  rcases exists_encode_or_reservedByte v with ⟨i, hi⟩ | hv
  · have hok : decode (.cmd8 v) = .ok i := hi ▸ decode_encode i
    cases h.symm.trans hok
  · exact hv

/-! ### The acceptance of commands (R62) -/

theorem onBlock_whenIdle {s : State} (hidle : s.block.busy = false) (f : Block → Block) :
    s.onBlock (Block.whenIdle f) = { s with block := f s.block } := by
  rw [State.onBlock, whenIdle_idle hidle]

/-! ### The command write (R61, R62, R63) -/

theorem commandWrite_nop (b : Block) : b.commandWrite 0x00#8 = b := by
  simp [Block.commandWrite, Block.whenIdle]

theorem commandWrite_of_reservedByte (b : Block) {v : Byte} (hv : ReservedByte v) : b.commandWrite v = b := by
  simp [Block.commandWrite, Block.whenIdle, hv.ne]

theorem exec_wr_cmd (s : State) (v : Byte) :
    exec (.wr cmdAddr v) s = .next (s.onBlock (Block.commandWrite v)) := by
  rw [exec, execWr, State.onBlock, hostWrite_cmd, State.onBlock]

/-! ### The host's lines (R63, R66, R67, R116) -/

theorem step_of_turns_host {s : State} {ts : List Turn} (h : s.turns = .host :: ts) :
    step s = State.hostTurn { s with turns := ts } := by
  rw [step_of_nextTurn_host (nextTurn_of_turns_cons h), State.dropTurn, h, List.tail_cons]

theorem hostTurn_of_decode_error {s : State} {w : HostWord} {rest : List HostLine} {e : DecodeError}
    (hs : s.script = .word w :: rest) (hw : decode w = .error e) :
    s.hostTurn = .next (State.unlistedWord e { s with script := rest }) := by
  simp [State.hostTurn, hs, hw]

theorem hostTurn_of_wait {s : State} {rest : List HostLine} (hs : s.script = .wait :: rest) :
    s.hostTurn = .next (s.waitTurn rest) := by
  simp [State.hostTurn, hs]

/-- A word with `WE = 0` reads its address, whatever its `WDATA` is. -/
theorem hostTurn_of_busWe_false {s : State} {w : BitVec 20} {rest : List HostLine}
    (hs : s.script = .word (.bus20 w) :: rest) (hwe : busWe w = false) :
    s.hostTurn = exec (.rd (busAddr w)) { s with script := rest } := by
  by_cases hdata : busData w = 0#8
  · exact hostTurn_of_decode_ok hs (decode_of_busData_zero hwe hdata)
  · rw [hostTurn_of_decode_error hs (decode_of_busData_ne_zero hwe hdata)]
    rfl

theorem statusByte_busyBit (b : Block) : b.statusByte.getLsbD 0 = b.busy := by
  rw [Block.statusByte, BitVec.getLsbD_append]
  simp

theorem decodeTableWord_eq_some {nbits w : Nat} {i : Instr} (h : decodeTableWord nbits w = some i) :
    ∃ word, HostWord.ofTable nbits w = some word ∧ decode word = .ok i := by
  unfold decodeTableWord at h
  split at h
  next => cases h
  next word hword =>
    split at h
    next j hj =>
      cases h
      exact ⟨word, hword, hj⟩
    next => cases h

/-! ### A run of writes on an idle block (R45, R67) -/

theorem step_wr {s : State} (hidle : s.block.busy = false) (hturns : s.turns = []) {a : Addr} {v : Byte}
    {rest : List HostLine} (hscript : s.script = line (.wr a v) :: rest) :
    step s = .next { s with script := rest, block := s.block.writeAt v (locate a) } := by
  rw [stepRunsDecodedWord s _ rest _ (.inr ⟨hturns, hidle⟩) hscript (decode_encode_wr a v),
    exec_wr_of_locate (s := { s with script := rest, turns := s.turns.tail }) hidle rfl, hturns]
  rfl

section CellArray

/-! `put d` is an idle block whose array, of `n` cells at the targets `target`, holds `d`. -/

variable {n : Nat} {target : Nat → Target} {put : Vector Byte n → Block}
  (hidle : ∀ d, (put d).busy = false)
  (hput : ∀ d k v, (h : k < n) → (put d).writeAt v (locate (target k).addr) = put (d.set k v))
include hidle hput

/-- The writes of a sequence to the cells from `k` on put it there and leave the cells before and after it. -/
theorem run_writeCells {bytes : List Byte} {k : Nat} {d : Vector Byte n} {s : State} (rest : List HostLine)
    (hk : k + bytes.length ≤ n) (hturns : s.turns = []) :
    ∃ d' : Vector Byte n,
      run bytes.length { s with
          script := (bytes.zipIdx k).map (fun p => line (.wr (target p.2).addr p.1)) ++ rest, block := put d } =
        .next { s with script := rest, block := put d' } ∧
      d'.toList = d.toList.take k ++ bytes ++ d.toList.drop (k + bytes.length) := by
  induction bytes generalizing k d with
  | nil => exact ⟨d, rfl, by simp⟩
  | cons v bytes ih =>
    rw [List.length_cons] at hk
    obtain ⟨d', hrun, hcells⟩ := ih (k := k + 1) (d := d.set k v) (by omega)
    refine ⟨d', ?_, ?_⟩
    · refine Eq.trans (run_succ (step_wr (hidle d) (by exact hturns) rfl)) ?_
      rw [hput]
      exact hrun
    · have hlt : k < d.toList.length := by
        rw [Vector.length_toList]
        omega
      rw [hcells, Vector.toList_set, List.drop_set_of_lt (by omega), List.take_add_one,
        List.take_set_of_le (Nat.le_refl k), List.getElem?_set_self hlt]
      simp [Nat.add_assoc, Nat.add_comm 1]

/-- A load line on an idle block: the length register, then the cells. -/
theorem run_load {bytes : List Byte} {d : Vector Byte n} {s : State} {rest : List HostLine} {a : Addr} {v : Byte}
    (hn : bytes.length ≤ n) (hbusy : s.block.busy = false) (hturns : s.turns = [])
    (hlength : s.block.writeAt v (locate a) = put d)
    (hscript : s.script = line (.wr a v) :: writeCells target bytes ++ rest) :
    ∃ d' : Vector Byte n, run (bytes.length + 1) s = .next { s with script := rest, block := put d' } ∧
      firstCells d' bytes.length = bytes ∧ cellsFrom d' bytes.length = cellsFrom d bytes.length := by
  obtain ⟨d', hrun, hcells⟩ := run_writeCells hidle hput (k := 0) (bytes := bytes) (d := d) rest (by omega) hturns
  refine ⟨d', ?_, ?_, ?_⟩
  · rw [run_succ (step_wr hbusy hturns hscript), hlength]
    exact hrun
  · simp [firstCells, hcells]
  · simp [cellsFrom, hcells]

end CellArray

/-! ### The statements -/

/-- Settles O1: the opcode map takes each command's byte back to it, and the fields of a bus word are its operands. -/
theorem decodeOfEncodeIsTheInstruction : Obligations.DecodeOfEncodeIsTheInstruction := decode_encode

/-- Settles O2: a command byte is one command's word or reserved, and a bus word is made of its fields. -/
theorem encodeOfDecodeIsTheWord : Obligations.EncodeOfDecodeIsTheWord := fun _ _ => encode_of_decode

/-- Settles O3: every encoding is a listed word, and a listed word is read by its format. -/
theorem decodeAcceptsExactlyListedWords : Obligations.DecodeAcceptsExactlyListedWords := by
  intro w
  constructor
  · rintro ⟨i, hi⟩
    exact encode_of_decode hi ▸ encode_wellFormed i
  · intro hw
    cases w with
    | cmd8 v =>
      rcases exists_encode_or_reservedByte v with ⟨i, hi⟩ | hv
      · exact ⟨i, hi ▸ decode_encode i⟩
      · exact absurd hv ((commandListed_iff v).mp hw)
    | bus20 w =>
      cases hwe : busWe w with
      | true => exact ⟨_, decode_of_busWe_true hwe⟩
      | false =>
        have hdata : busData w = 0#8 := by simpa [HostWord.wellFormed, hwe] using hw
        exact ⟨_, decode_of_busData_zero hwe hdata⟩

/-- Settles O4: each command's byte is its encoding, and the other bytes are reserved. -/
theorem opcodeMapOfCommandByte : Obligations.OpcodeMapOfCommandByte :=
  ⟨decode_encode .nop, decode_encode .genkeys, decode_encode .processFwd, decode_encode .processInv,
    decode_encode .encrypt, decode_encode .decrypt, fun _ hv => decode_of_reservedByte hv⟩

/-- Settles O5: each of the eight words is the encoding of its transaction. -/
theorem specWordsDecode : Obligations.SpecWordsDecode :=
  ⟨decode_encode_wr 0x002#11 0x04#8, decode_encode_wr 0x000#11 0x02#8, decode_encode_wr 0x101#11 0x80#8,
    decode_encode_wr 0x207#11 0x21#8, decode_encode_rd 0x001#11, decode_encode_rd 0x300#11, decode_encode_rd 0x480#11,
    decode_encode_wr 0x1FE#11 0xD6#8⟩

/-- Settles O7: the word placed is the next line, and the turn placed is the host's. -/
theorem presentedWordRunsNext : Obligations.PresentedWordRunsNext := by
  intro s nbits w i h
  obtain ⟨word, hword, hdecode⟩ := decodeTableWord_eq_some h
  have hpresent : s.withFetchWord nbits w = s.presentWord word := by rw [State.withFetchWord, hword]
  rw [hpresent]
  exact stepRunsDecodedWord (s.presentWord word) word s.script i (.inl rfl) rfl hdecode

/-- Settles O9: a reserved byte is a command write that changes nothing, and a word with `WE = 0` is a read. -/
theorem unlistedWordsActAsThePorts : Obligations.UnlistedWordsActAsThePorts := by
  intro s rest ts hturns
  rw [step_of_turns_host hturns]
  refine ⟨fun v hv hscript => ?_, fun w hw hscript => ?_⟩
  · rw [hostTurn_of_decode_error (s := { s with turns := ts }) hscript (decode_of_reservedByte hv), State.unlistedWord,
      State.onBlock, hostWrite_cmd, commandWrite_of_reservedByte _ hv]
  · have hwe : busWe w = false := by simpa [busWe_eq] using hw
    have haddr : busAddr w = BitVec.ofNat 11 (w.toNat / 0x100) := by
      apply BitVec.eq_of_toNat_eq
      rw [busAddr_toNat, BitVec.toNat_ofNat]
    rw [hostTurn_of_busWe_false (s := { s with turns := ts }) hscript hwe, haddr]

/-- Settles O10: bit 0 of the value read is `BUSY`, and of the four values of `STATUS` three have it at 0. -/
theorem waitReadsStatusUntilIdle : Obligations.WaitReadsStatusUntilIdle := by
  intro s rest ts hturns hscript
  refine ⟨?_, fun hinv hidle => ?_⟩
  · rw [step_of_turns_host hturns, hostTurn_of_wait (s := { s with turns := ts }) hscript, State.waitTurn,
      hostRead_status, statusByte_busyBit]
    cases hbusy : s.block.busy <;> simp [State.read, hostRead_status]
  · rcases statusTakesOnlyFourValues s.block hinv with h | h | h | h
    · exact .inl h
    · have hbit := statusByte_busyBit s.block
      simp [h, hidle] at hbit
    · exact .inr (.inl h)
    · exact .inr (.inr h)

/-- Settles O21: the acceptance of GENKEYS, on an idle block. -/
theorem genkeysIsAccepted : Obligations.GenkeysIsAccepted := fun _ hidle =>
  congrArg Host.Outcome.next (onBlock_whenIdle hidle _)

/-- Settles O22: the acceptance of PROCESS in each mode, on an idle block. -/
theorem processIsAccepted : Obligations.ProcessIsAccepted := fun _ hidle =>
  ⟨congrArg Host.Outcome.next (onBlock_whenIdle hidle _), congrArg Host.Outcome.next (onBlock_whenIdle hidle _)⟩

/-- Settles O23: the acceptance of ENCRYPT and of DECRYPT, on an idle block. -/
theorem cryptIsAccepted : Obligations.CryptIsAccepted := fun _ hidle =>
  ⟨congrArg Host.Outcome.next (onBlock_whenIdle hidle _), congrArg Host.Outcome.next (onBlock_whenIdle hidle _)⟩

/-- Settles O19: a command's meaning is the command write of its byte, and a byte that is no command is reserved. -/
theorem commandIsTheWriteOfItsByte : Obligations.CommandIsTheWriteOfItsByte := by
  intro s v
  refine ⟨fun i hi => ?_, fun e he => ?_⟩
  · have hword := encode_of_decode hi
    rw [exec_wr_cmd]
    cases i with
    | nop =>
      cases hword
      rw [State.onBlock, commandWrite_nop]
      rfl
    | wr a d | rd a => cases hword
    | _ =>
      cases hword
      rfl
  · rw [exec_wr_cmd, State.onBlock, commandWrite_of_reservedByte s.block (reservedByte_of_decode_error he)]

/-- Settles O18: a busy block drops the write; an idle one takes it as the command of its byte, where it is one. -/
theorem commandWriteFollowsTheAcceptanceTable : Obligations.CommandWriteFollowsTheAcceptanceTable := by
  intro s v
  obtain ⟨hcommand, hother⟩ := commandIsTheWriteOfItsByte s v
  refine ⟨fun hbusy => exec_wr_of_busy hbusy _ v, fun hidle => ⟨?_, ?_, ?_, ?_, ?_, ?_⟩⟩
  · rintro rfl
    exact (hcommand .genkeys rfl).trans (genkeysIsAccepted s hidle)
  · rintro rfl
    exact (hcommand .processFwd rfl).trans (processIsAccepted s hidle).1
  · rintro rfl
    exact (hcommand .processInv rfl).trans (processIsAccepted s hidle).2
  · rintro rfl
    exact (hcommand .encrypt rfl).trans (cryptIsAccepted s hidle).1
  · rintro rfl
    exact (hcommand .decrypt rfl).trans (cryptIsAccepted s hidle).2
  · rintro (hzero | hv)
    · obtain rfl : v = 0x00#8 := BitVec.eq_of_toNat_eq hzero
      exact hcommand .nop rfl
    · exact hother _ (decode_of_reservedByte hv)

/-- Settles O55: a load line is a write of the length register and the writes of the cells of its array. -/
theorem loadScriptsSetLengthAndCells : Obligations.LoadScriptsSetLengthAndCells := by
  intro s bytes rest hbusy hturns
  refine ⟨fun hlen hscript => ?_, fun hlen hscript => ?_⟩
  · obtain ⟨d, hrun, hcells⟩ := run_load (target := .din)
      (put := fun d => { s.block with blen := BitVec.ofNat 8 bytes.length, din := d }) (fun _ => hbusy)
      (fun d k v hk => congrArg (Block.writeAt _ v) (locate_din hk)) (of_decide_eq_true hlen) hbusy hturns rfl hscript
    exact ⟨_, hrun, rfl, hcells⟩
  · obtain ⟨d, hrun, hcells⟩ := run_load (target := .key)
      (put := fun d => { s.block with klen := BitVec.ofNat 8 bytes.length, key := d }) (fun _ => hbusy)
      (fun d k v hk => congrArg (Block.writeAt _ v) (locate_key hk)) (of_decide_eq_true hlen) hbusy hturns rfl hscript
    exact ⟨_, hrun, rfl, hcells⟩

end Sys2Proof.Machine
end

section
/-! PROOFS. Statements of spec/40_keyschedule.md: the key formula (R75, R79), the KGEN step (R77) and the agreement of the
levels for a key generation (R78). -/

namespace Sys2Proof.Machine

/-! ### The key formula (R75, R79) -/

theorem keyByte_toNat (i : Nat) : (keyByte i).toNat = (i + 1) * 42 % 256 := BitVec.toNat_ofNat _ _

/-- Cutting the product to 8 bits is taking it mod 256. -/
theorem keyByte_eq_ofNat_mod (i : Nat) : keyByte i = BitVec.ofNat 8 ((i + 1) * 42 % 256) := by
  apply BitVec.eq_of_toNat_eq
  rw [keyByte_toNat, BitVec.toNat_ofNat, Nat.mod_mod]

/-- The 8-bit recurrence: each key is 42 more than the one before it. -/
theorem keyByte_succ (i : Nat) : keyByte (i + 1) = keyByte i + 42#8 := by
  rw [keyByte, Nat.succ_mul, BitVec.ofNat_add, keyByte]

/-- 128 keys further the product is `21 * 256` more. -/
theorem keyByte_add_period (i : Nat) : keyByte (i + 128) = keyByte i := by
  apply BitVec.eq_of_toNat_eq
  rw [keyByte_toNat, keyByte_toNat]
  omega

/-- Every schedule is a cut of the one sequence of keys. -/
theorem take_generate {r r' : Nat} (h : r ≤ r') : (generate r').take r = generate r := by
  rw [generate, ← List.map_take, List.take_range, Nat.min_eq_left h, generate]

/-! ### A key generation, by engine steps and by turns (R77, R78) -/

section KeyGeneration

variable {b : Block} (hbusy : b.busy = true) (hphase : b.phase = .kgen) (hki : b.ki = 0#8)
include hbusy hphase hki

/-- Until its exit a key generation stays in KGEN and the block stays busy. -/
theorem iterate_kgen_running {n : Nat} (hn : n ≤ b.rounds.toNat) :
    (Block.engineStep^[n] b).busy = true ∧ (Block.engineStep^[n] b).phase = .kgen := by
  obtain ⟨key, hblock, -⟩ := iterate_kgen hbusy hphase hki hn
  rw [hblock]
  exact ⟨hbusy, hphase⟩

theorem iterate_genkeys_phase_ne : (Block.engineStep^[b.rounds.toNat + 1] b).phase ≠ .kgen := by
  obtain ⟨key, hblock, -⟩ := iterate_genkeys hbusy hphase hki
  rw [hblock]
  split <;> nofun

end KeyGeneration

/-- From the acceptance of a command that generates keys: after exactly `ROUNDS + 1` engine steps, whatever host steps are
interleaved, the schedule stands in the key store and the command has left KGEN. -/
theorem run_genkeys {s : State} {ts rest : List Turn} (hbusy : s.block.busy = true) (hphase : s.block.phase = .kgen)
    (hki : s.block.ki = 0#8) (hrun : EngineRun (s.block.rounds.toNat + 1) ts) (hturns : s.turns = ts ++ rest) :
    ∃ t, run ts.length s = .next t ∧ t.turns = rest ∧
      t.block = (if s.block.chain then
          { s.block with key := t.block.key, ki := s.block.rounds, klen := s.block.rounds, phase := .load }
        else
          { s.block with
            key := t.block.key, ki := s.block.rounds, klen := s.block.rounds
            phase := .idle, busy := false, done := true }) ∧
      firstCells t.block.key s.block.rounds.toNat = generate s.block.rounds.toNat ∧
      cellsFrom t.block.key s.block.rounds.toNat = cellsFrom s.block.key s.block.rounds.toNat := by
  obtain ⟨t, ht, hrest, hblock⟩ := run_engineRun hrun hturns fun k hk =>
    (iterate_kgen_running hbusy hphase hki (Nat.lt_succ_iff.mp hk)).1
  obtain ⟨key, hend, hfirst, hafter⟩ := iterate_genkeys hbusy hphase hki
  rw [hend] at hblock
  have hkey : t.block.key = key := by
    rw [hblock]
    split <;> rfl
  exact ⟨t, ht, hrest, hkey ▸ hblock, hkey ▸ hfirst, hkey ▸ hafter⟩

/-! ### The statements -/

/-- Settles O40: GENKEYS leaves its key generation to IDLE, ENCRYPT and DECRYPT leave theirs to LOAD. -/
theorem genkeysAgreesWithGenerate : Obligations.GenkeysAgreesWithGenerate := by
  intro s ts rest hidle hrun hturns
  refine ⟨?_, fun i m him => ?_⟩
  · obtain ⟨t, ht, hrest, hblock, hcells⟩ :=
      run_genkeys (s := { s with block := s.block.acceptGenkeys }) rfl rfl rfl hrun hturns
    exact ⟨_, t, genkeysIsAccepted s hidle, ht, hrest, hblock, hcells⟩
  · have haccept : exec i s = .next { s with block := s.block.acceptCrypt m } := by
      rcases him with ⟨rfl, rfl⟩ | ⟨rfl, rfl⟩
      · exact (cryptIsAccepted s hidle).1
      · exact (cryptIsAccepted s hidle).2
    obtain ⟨t, ht, hrest, hblock, hcells⟩ :=
      run_genkeys (s := { s with block := s.block.acceptCrypt m }) rfl rfl rfl hrun hturns
    exact ⟨_, t, haccept, ht, hrest, hblock, hcells⟩

/-- Settles O25: the three branches of the KGEN step, and the keys before its exit counted. -/
theorem kgenStepFollowsItsRule : Obligations.KgenStepFollowsItsRule := by
  intro b hbusy hphase
  rw [engineStep_kgen hbusy hphase]
  refine ⟨fun hlt => ⟨Block.ki_lt hlt, ?_, ?_⟩, kgenStep_chain, kgenStep_end, fun hki => ?_⟩
  · rw [kgenStep_key hlt, succ_eq_ofNat, Block.nextKey, keyByte_eq_ofNat_mod]
  · rw [kgenStep_key hlt]
    exact toNat_succ hlt
  · exact ⟨fun n hn => (iterate_kgen_running hbusy hphase hki hn).2, iterate_genkeys_phase_ne hbusy hphase hki⟩

/-- Settles O44: a schedule is the first `r` keys of the one sequence. -/
theorem generateFollowsTheFormula : Obligations.GenerateFollowsTheFormula := fun r =>
  ⟨generate_length r, fun i hi => by rw [generate_getElem? hi, keyByte_eq_ofNat_mod], fun _ => take_generate⟩

/-- Settles O45: the recurrence and the period hold of the key at every index, so of every schedule's bytes. -/
theorem keyFormulaIsAnAccumulatorOfPeriod128 : Obligations.KeyFormulaIsAnAccumulatorOfPeriod128 := by
  refine ⟨fun i hi => ⟨by omega, keyByte_toNat i⟩, by decide, keyByte_succ, fun i hi => ?_, by decide, by decide,
    fun r i hi => ?_⟩
  · rw [keyByte_toNat]
    omega
  · have hlt : i < r := by omega
    rw [generate_getElem? hi, generate_getElem? hlt, keyByte_add_period]

end Sys2Proof.Machine
end

section
/-! PROOFS. Statements of spec/41_feistel_engine.md: `process` and its inverse at the function level (R88, R95 to R100,
R104), the steps LOAD, ROUND and STORE (R91 to R93) with the table of transitions (R102), and the agreement of the levels
for a process (R94). -/

namespace Sys2Proof.Machine

/-! ### `process` at the function level -/

theorem exists_process_of_even {block : List Byte} (heven : block.length % 2 = 0) (keys : List Byte) (m : Mode) :
    ∃ c, process block keys m = .ok c :=
  ⟨_, process_even heven keys m⟩

/-- A process that answers has an even block, and its result is the two halves after the last round, exchanged. -/
theorem process_eq_ok {block keys c : List Byte} {m : Mode} (h : process block keys m = .ok c) :
    block.length % 2 = 0 ∧
      ∃ g, (Halves.split block).afterRounds m keys keys.length = g ∧ g.Balanced (block.length / 2) ∧
        c = g.right ++ g.left := by
  rcases Nat.mod_two_eq_zero_or_one block.length with heven | hodd
  · rw [process_even heven] at h
    cases h
    exact ⟨heven, _, rfl, Halves.afterRounds_balanced (Halves.split_balanced heven) m keys _, rfl⟩
  · rw [process_odd hodd] at h
    cases h

/-- The halves keep their length through the rounds (R96). -/
theorem process_length {block keys c : List Byte} {m : Mode} (h : process block keys m = .ok c) :
    c.length = block.length := by
  obtain ⟨heven, g, -, ⟨hleft, hright⟩, rfl⟩ := process_eq_ok h
  rw [List.length_append, hleft, hright]
  omega

/-- Each mode undoes the other (R95, R100): the exchanged halves of the result walk back through the rounds. -/
theorem process_undo {block keys c : List Byte} {m : Mode} (h : process block keys m = .ok c) :
    process c keys (Mode.other m) = .ok block := by
  have hlength := process_length h
  obtain ⟨heven, g, hg, ⟨hleft, hright⟩, rfl⟩ := process_eq_ok h
  have hsplit : Halves.split (g.right ++ g.left) = g.swap := Halves.split_append (hright.trans hleft.symm)
  have hback : g.swap.afterRounds (Mode.other m) keys keys.length = (Halves.split block).swap := by
    rw [← hg, Halves.afterRounds_other (Halves.split_balanced heven) m keys (Nat.le_refl _), Nat.sub_self]
    rfl
  rw [process_even (hlength ▸ heven), hsplit, hback]
  exact congrArg Except.ok (List.take_append_drop _ _)

/-- Each mode is the other with the keys reversed (R100). -/
theorem process_reverse (block keys : List Byte) (m : Mode) :
    process block keys m = process block keys.reverse (Mode.other m) := by
  rcases Nat.mod_two_eq_zero_or_one block.length with heven | hodd
  · rw [process_even heven, process_even heven, List.length_reverse, Halves.afterRounds_reverse _ m keys (Nat.le_refl _)]
  · rw [process_odd hodd, process_odd hodd]

/-- With no keys there is no round, and the halves are exchanged (R97). -/
theorem process_no_keys {block : List Byte} (heven : block.length % 2 = 0) (m : Mode) :
    process block [] m = .ok (block.drop (block.length / 2) ++ block.take (block.length / 2)) :=
  process_even heven [] m

theorem process_nil (keys : List Byte) (m : Mode) : process [] keys m = .ok [] := by
  obtain ⟨c, hc⟩ := exists_process_of_even (block := []) rfl keys m
  rw [hc, List.length_eq_zero_iff.mp (process_length hc)]

/-! ### One position of the halves (R104) -/

/-- Position `j` of both halves, as halves of at most one byte. -/
def Halves.column (h : Halves) (j : Nat) : Halves := ⟨h.left[j]?.toList, h.right[j]?.toList⟩

theorem Halves.column_of_lt {h : Halves} {n j : Nat} (hb : h.Balanced n) (hj : j < n) :
    ∃ x y, h.left[j]? = some x ∧ h.right[j]? = some y ∧ h.column j = ⟨[x], [y]⟩ := by
  obtain ⟨hleft, hright⟩ := hb
  have hx : h.left[j]? = some (h.left[j]'(hleft ▸ hj)) := List.getElem?_eq_getElem _
  have hy : h.right[j]? = some (h.right[j]'(hright ▸ hj)) := List.getElem?_eq_getElem _
  exact ⟨_, _, hx, hy, by rw [Halves.column, hx, hy]; rfl⟩

/-- A round works on each position by itself. -/
theorem Halves.round_column (h : Halves) (k : Byte) (j : Nat) : (h.round k).column j = (h.column j).round k := by
  simp only [Halves.column, Halves.round, List.getElem?_zipWith, Halves.mk.injEq, true_and]
  cases h.left[j]? with
  | none => rfl
  | some x =>
    cases h.right[j]? with
    | none => rfl
    | some y => rfl

theorem Halves.afterRounds_column (h : Halves) (m : Mode) (keys : List Byte) (j n : Nat) :
    (h.afterRounds m keys n).column j = (h.column j).afterRounds m keys n := by
  induction n with
  | zero => rfl
  | succ n ih => rw [Halves.afterRounds, Halves.round_column, ih, Halves.afterRounds]

/-! ### The engine's steps of a process (R91 to R93) -/

theorem two_mul_half_of_even {b : Block} (heven : b.blen.toNat % 2 = 0) : 2 * b.half = b.blen.toNat := by
  simp only [Block.half]
  omega

/-- Cutting the sum to 8 bits is taking it mod 256 (R85). -/
theorem roundFunction_eq_ofNat_mod (data key : Byte) :
    roundFunction data key = BitVec.ofNat 8 ((data.toNat + key.toNat) % 256) := by
  apply BitVec.eq_of_toNat_eq
  rw [roundFunction, BitVec.toNat_add, BitVec.toNat_ofNat, Nat.mod_mod]

theorem getElem?_eq_of_getElem_eq {n j : Nat} {v w : Vector Byte n} (h : (hj : j < n) → v[j] = w[j]) : v[j]? = w[j]? := by
  by_cases hj : j < n
  · rw [Vector.getElem?_eq_getElem hj, Vector.getElem?_eq_getElem hj, h hj]
  · simp [hj]

theorem engineStep_round_exit {b : Block} (hbusy : b.busy = true) (hphase : b.phase = .round)
    (hexit : b.klen.toNat ≤ b.rnd.toNat) : b.engineStep = { b with phase := .store } :=
  (engineStep_round hbusy hphase).trans (roundStep_exit hexit)

/-! ### `STATUS` after a command (R18, R122) -/

theorem statusByte_of_done {b : Block} (hbusy : b.busy = false) (hdone : b.done = true) (herr : b.err = false) :
    b.statusByte = 0x02#8 := by
  simp [Block.statusByte, hbusy, hdone, herr]

theorem statusByte_of_err {b : Block} (hbusy : b.busy = false) (hdone : b.done = false) (herr : b.err = true) :
    b.statusByte = 0x04#8 := by
  simp [Block.statusByte, hbusy, hdone, herr]

/-- An abort leaves `ERR` alone set (R124). -/
theorem raiseMalformedInput_statusByte (b : Block) : b.raiseMalformedInput.statusByte = 0x04#8 :=
  statusByte_of_err rfl rfl rfl

/-! ### The engine's transitions, from each state of the machine (R102) -/

section Transitions

variable {b : Block} (hbusy : b.busy = true)
include hbusy

theorem engineStep_from_kgen (herr : b.err = false) (hphase : b.phase = .kgen) :
    if b.ki.toNat < b.rounds.toNat then b.engineStep.phase = .kgen
    else if b.chain then b.engineStep.phase = .load
    else b.engineStep.phase = .idle ∧ b.engineStep.statusByte = 0x02#8 := by
  rw [engineStep_kgen hbusy hphase]
  split_ifs with hlt hchain
  · rw [kgenStep_key hlt]
    exact hphase
  · rw [kgenStep_chain (Nat.not_lt.mp hlt) hchain]
  · rw [kgenStep_end (Nat.not_lt.mp hlt) (Bool.eq_false_iff.mpr hchain)]
    exact ⟨rfl, statusByte_of_done rfl rfl herr⟩

theorem engineStep_from_load (hphase : b.phase = .load) :
    if b.blen.toNat % 2 = 1 then b.engineStep.phase = .idle ∧ b.engineStep.statusByte = 0x04#8
    else b.engineStep.phase = .round := by
  rw [engineStep_load hbusy hphase]
  split_ifs with hodd
  · rw [loadStep_odd hodd]
    exact ⟨rfl, raiseMalformedInput_statusByte b⟩
  · rw [loadStep_even (Nat.mod_two_ne_one.mp hodd)]

theorem engineStep_from_round (hle : b.rnd.toNat ≤ b.klen.toNat) (hphase : b.phase = .round) :
    if b.rnd = b.klen then b.engineStep.phase = .store else b.engineStep.phase = .round := by
  split_ifs with heq
  · rw [engineStep_round_exit hbusy hphase (by rw [heq])]
  · have hlt : b.rnd.toNat < b.klen.toNat := Nat.lt_of_le_of_ne hle fun h => heq (BitVec.eq_of_toNat_eq h)
    rw [engineStep_round hbusy hphase, roundStep_round hlt]
    exact hphase

theorem engineStep_from_store (herr : b.err = false) (hphase : b.phase = .store) :
    b.engineStep.phase = .idle ∧ b.engineStep.statusByte = 0x02#8 := by
  rw [engineStep_store hbusy hphase, storeStep_eq]
  exact ⟨rfl, statusByte_of_done rfl rfl herr⟩

end Transitions

/-! ### Runs of engine steps of a process (R94) -/

/-- A block that is busy after some engine steps was busy before each of them. -/
theorem busy_of_iterate_busy {b : Block} {k n : Nat} (hkn : k ≤ n) (h : (Block.engineStep^[n] b).busy = true) :
    (Block.engineStep^[k] b).busy = true := by
  by_contra hne
  have hidle : (Block.engineStep^[k] b).busy = false := Bool.eq_false_iff.mpr hne
  obtain ⟨d, rfl⟩ := Nat.exists_eq_add_of_le' hkn
  rw [Function.iterate_add_apply, iterate_idle hidle] at h
  exact hne h

/-- The cells from index 0 on are all the cells. -/
theorem eq_of_cellsFrom_zero {n : Nat} {v w : Vector Byte n} (h : cellsFrom v 0 = cellsFrom w 0) : v = w :=
  Vector.toList_inj.mp h

/-- A process of even length stands before its STORE step. -/
theorem iterate_to_store {b : Block} (hbusy : b.busy = true) (hphase : b.phase = .load)
    (heven : b.blen.toNat % 2 = 0) :
    ∃ left right,
      Block.engineStep^[b.klen.toNat + 2] b =
        { b with left := left, right := right, rnd := b.klen, phase := .store } ∧
      cellsFrom left b.half = cellsFrom b.left b.half ∧ cellsFrom right b.half = cellsFrom b.right b.half := by
  obtain ⟨left, right, hrounds, -, hcells⟩ := iterate_rounds hbusy hphase heven (Nat.le_refl _)
  rw [BitVec.ofNat_toNat, BitVec.setWidth_eq] at hrounds
  refine ⟨left, right, ?_, hcells⟩
  rw [iterate_succ, hrounds]
  exact engineStep_round_exit hbusy rfl (Nat.le_refl _)

/-- Until its last step a process of even length keeps the block busy. -/
theorem iterate_process_running {b : Block} (hbusy : b.busy = true) (hphase : b.phase = .load)
    (heven : b.blen.toNat % 2 = 0) {k : Nat} (hk : k < b.klen.toNat + 3) : (Block.engineStep^[k] b).busy = true := by
  obtain ⟨left, right, hstore, -⟩ := iterate_to_store hbusy hphase heven
  refine busy_of_iterate_busy (Nat.lt_succ_iff.mp hk) ?_
  rw [hstore]
  exact hbusy

/-- `t` is the block `b` at the end of a process of mode `m` and of even length that `b` accepted: the registers and
cells R94 names, and no others, have changed, and `DOUT` holds the result. -/
structure Block.ProcessDone (b : Block) (m : Mode) (t : Block) : Prop where
  block : t = { b with
    dout := t.dout, left := t.left, right := t.right, rnd := b.klen
    busy := false, done := true, err := false, phase := .idle, mode := m, chain := false }
  result : process (firstCells b.din b.blen.toNat) (firstCells b.key b.klen.toNat) m =
    .ok (firstCells t.dout b.blen.toNat)
  halves : firstCells t.right (b.blen.toNat / 2) ++ firstCells t.left (b.blen.toNat / 2) =
    firstCells t.dout b.blen.toNat
  dout_rest : cellsFrom t.dout b.blen.toNat = cellsFrom b.dout b.blen.toNat
  left_rest : cellsFrom t.left (b.blen.toNat / 2) = cellsFrom b.left (b.blen.toNat / 2)
  right_rest : cellsFrom t.right (b.blen.toNat / 2) = cellsFrom b.right (b.blen.toNat / 2)

theorem iterate_acceptProcess_even {b : Block} (heven : b.blen.toNat % 2 = 0) (m : Mode) :
    b.ProcessDone m (Block.engineStep^[b.klen.toNat + 3] (b.acceptProcess m)) := by
  obtain ⟨dout, left, right, hend, hresult, hhalves, hdout, hleft, hright⟩ :=
    iterate_process (b := b.acceptProcess m) rfl rfl heven
  have hblock : Block.engineStep^[b.klen.toNat + 3] (b.acceptProcess m) = _ := hend
  rw [hblock]
  exact ⟨rfl, hresult, hhalves, hdout, hleft, hright⟩

theorem Block.ProcessDone.statusByte {b t : Block} {m : Mode} (h : b.ProcessDone m t) : t.statusByte = 0x02#8 := by
  rw [h.block]
  exact statusByte_of_done rfl rfl rfl

theorem Block.ProcessDone.operands_eq {b t : Block} {m : Mode} (h : b.ProcessDone m t) :
    t.key = b.key ∧ t.klen = b.klen ∧ t.blen = b.blen ∧ t.rnd = b.klen := by
  rw [h.block]
  exact ⟨rfl, rfl, rfl, rfl⟩

/-- A second process, of another input block with the same keys. -/
theorem Block.ProcessDone.iterate_again {b t : Block} {m : Mode} (h : b.ProcessDone m t)
    (heven : b.blen.toNat % 2 = 0) (din : Vector Byte Config.dbufCells) (m' : Mode) :
    ({ t with din := din } : Block).ProcessDone m'
      (Block.engineStep^[b.klen.toNat + 3] ({ t with din := din }.acceptProcess m')) := by
  obtain ⟨-, hklen, hblen, -⟩ := h.operands_eq
  rw [← hblen] at heven
  rw [← hklen]
  exact iterate_acceptProcess_even (b := { t with din := din }) heven m'

/-- A process of odd length ends in its first step, and nothing runs after it (R91, R98). -/
theorem iterate_acceptProcess_odd {b : Block} (hodd : b.blen.toNat % 2 = 1) (m : Mode) (k : Nat) :
    Block.engineStep^[k + 1] (b.acceptProcess m) = (b.acceptProcess m).raiseMalformedInput := by
  have hload : (b.acceptProcess m).engineStep = (b.acceptProcess m).raiseMalformedInput :=
    (engineStep_load rfl rfl).trans (loadStep_odd hodd)
  rw [Function.iterate_succ_apply, hload]
  exact iterate_idle rfl k

theorem iterate_acceptProcess_odd_statusByte {b : Block} (hodd : b.blen.toNat % 2 = 1) (m : Mode) (k : Nat) :
    (Block.engineStep^[k + 1] (b.acceptProcess m)).statusByte = 0x04#8 := by
  rw [iterate_acceptProcess_odd hodd m k]
  exact raiseMalformedInput_statusByte _

/-- ENCRYPT and DECRYPT of odd length end after their key generation and one LOAD step (R98). -/
theorem iterate_acceptCrypt_odd_statusByte {b : Block} (hodd : b.blen.toNat % 2 = 1) (m : Mode) :
    (Block.engineStep^[b.rounds.toNat + 2] (b.acceptCrypt m)).statusByte = 0x04#8 := by
  obtain ⟨key, hkgen, -⟩ := iterate_genkeys (b := b.acceptCrypt m) rfl rfl rfl
  have hload : Block.engineStep^[b.rounds.toNat + 1] (b.acceptCrypt m) = _ := hkgen.trans (if_pos rfl)
  rw [iterate_succ, hload, engineStep_load rfl rfl, loadStep_odd (by exact hodd)]
  exact raiseMalformedInput_statusByte _

theorem exec_process {i : Instr} {m : Mode} {s : State} (hidle : s.block.busy = false)
    (him : (i = .processFwd ∧ m = .forward) ∨ (i = .processInv ∧ m = .inverse)) :
    exec i s = .next { s with block := s.block.acceptProcess m } := by
  rcases him with ⟨rfl, rfl⟩ | ⟨rfl, rfl⟩
  · exact (processIsAccepted s hidle).1
  · exact (processIsAccepted s hidle).2

/-! ### The statements -/

/-- Settles O41: the block stays busy until the last engine step, so the host steps between change nothing, and the engine
steps alone are the process. -/
theorem processAgreesWithFunction : Obligations.ProcessAgreesWithFunction := by
  intro s ts rest i m hidle him hturns
  refine ⟨fun heven hrun => ?_, fun hodd hrun => ?_⟩
  · obtain ⟨t, ht, hrest, hblock⟩ := run_engineRun (s := { s with block := s.block.acceptProcess m }) hrun hturns
      fun k hk => iterate_process_running (b := s.block.acceptProcess m) rfl rfl heven hk
    obtain ⟨hend, hresult, hhalves, hdout, hleft, hright⟩ := hblock ▸ iterate_acceptProcess_even heven m
    exact ⟨_, t, exec_process hidle him, ht, hrest, hend, hresult, hhalves, hdout, hleft, hright⟩
  · obtain ⟨t, ht, hrest, hblock⟩ := run_engineRun (s := { s with block := s.block.acceptProcess m }) hrun hturns
      fun k hk => by
        obtain rfl := Nat.lt_one_iff.mp hk
        rfl
    have habort : t.block = (s.block.acceptProcess m).raiseMalformedInput :=
      hblock.trans (iterate_acceptProcess_odd hodd m 0)
    exact ⟨_, t, exec_process hidle him, ht, hrest, habort ▸ raiseMalformedInput_statusByte _, habort⟩

/-- Settles O46: a process of one mode undoes one of the other, and each machine run's result is `process` of its
operands. -/
theorem inverseUndoesForward : Obligations.InverseUndoesForward := by
  refine ⟨fun block keys heven => ?_, ?_⟩
  · obtain ⟨c, hc⟩ := exists_process_of_even heven keys .forward
    exact ⟨c, hc, process_undo hc⟩
  · intro b din _ heven mid hdin fin
    have hmid : b.ProcessDone .forward mid := iterate_acceptProcess_even heven .forward
    have hfin : ({ mid with din := din } : Block).ProcessDone .inverse fin := hmid.iterate_again heven din .inverse
    obtain ⟨hkey, hklen, hblen, -⟩ := hmid.operands_eq
    refine ⟨?_, hfin.statusByte⟩
    have hresult : process (firstCells din mid.blen.toNat) (firstCells mid.key mid.klen.toNat) .inverse =
      .ok (firstCells fin.dout mid.blen.toNat) := hfin.result
    rw [hkey, hklen, hblen, hdin] at hresult
    exact Except.ok.inj (hresult.symm.trans (process_undo hmid.result))

/-- Settles O47: the two modes undo each other, and reversed keys exchange them. -/
theorem forwardUndoesInverse : Obligations.ForwardUndoesInverse := by
  intro block keys
  have hround (m : Mode) (heven : block.length % 2 = 0) :
      ∃ c, process block keys m = .ok c ∧ c.length = block.length ∧ process c keys (Mode.other m) = .ok block := by
    obtain ⟨c, hc⟩ := exists_process_of_even heven keys m
    exact ⟨c, hc, process_length hc, process_undo hc⟩
  exact ⟨process_reverse block keys .inverse, process_reverse block keys .forward,
    fun heven => ⟨hround .inverse heven, hround .forward heven⟩⟩

/-- Settles O26: the two branches of the LOAD step, cell by cell. -/
theorem loadStepFollowsItsRule : Obligations.LoadStepFollowsItsRule := by
  intro b hbusy hphase
  rw [engineStep_load hbusy hphase]
  refine ⟨loadStep_odd, fun heven => ⟨loadStep_even heven, fun j hj => ?_, fun j hj => ?_⟩⟩
  · have hhalf : j < b.half := hj
    have hle := half_le' b
    have hj127 : j < 127 := by omega
    have hj254 : j < 254 := by omega
    have hsum : b.blen.toNat / 2 + j < 254 := by show b.half + j < 254; omega
    rw [Vector.getElem?_eq_getElem hj127, Vector.getElem?_eq_getElem hj127, Vector.getElem?_eq_getElem hj254,
      Vector.getElem?_eq_getElem hsum, loadStep_left heven hj127, loadStep_right heven hj127, if_pos hhalf,
      dif_pos hhalf]
    exact ⟨rfl, rfl⟩
  · have hhalf : ¬ j < b.half := Nat.not_lt.mpr hj
    exact ⟨getElem?_eq_of_getElem_eq fun hlt => by rw [loadStep_left heven hlt, if_neg hhalf],
      getElem?_eq_of_getElem_eq fun hlt => by rw [loadStep_right heven hlt, dif_neg hhalf]⟩

/-- Settles O27: the exit, or one round with the key at `kidx`. -/
theorem roundStepFollowsItsRule : Obligations.RoundStepFollowsItsRule := by
  intro b hbusy hphase
  refine ⟨engineStep_round_exit hbusy hphase, fun i hlt hi => ?_⟩
  have hindex : i = b.keyIndex := by
    rw [hi, Block.keyIndex]
    cases b.mode <;> rfl
  subst hindex
  rw [engineStep_round hbusy hphase]
  refine ⟨Block.keyIndex_lt hlt, ?_, ?_, fun j hj => ⟨roundStep_left hlt hj, ?_⟩⟩
  · rw [← succ_eq_ofNat]
    exact roundStep_round hlt
  · rw [roundStep_round hlt]
    exact toNat_succ hlt
  · rw [← roundFunction_eq_ofNat_mod]
    exact roundStep_right hlt hj

/-- Settles O28: right half, then left half, then the cells STORE does not write. -/
theorem storeStepFollowsItsRule : Obligations.StoreStepFollowsItsRule := by
  intro b hbusy hphase
  have hle := half_le' b
  rw [engineStep_store hbusy hphase, show b.blen.toNat / 2 = b.half from rfl]
  refine ⟨storeStep_eq b, fun j hj => ?_, fun j hj => getElem?_eq_of_getElem_eq fun hlt => ?_⟩
  · have hj127 : j < 127 := by omega
    have hj254 : j < 254 := by omega
    have hsum : b.half + j < 254 := by omega
    rw [Vector.getElem?_eq_getElem hj127, Vector.getElem?_eq_getElem hj127, Vector.getElem?_eq_getElem hj254,
      Vector.getElem?_eq_getElem hsum, storeStep_dout b hj254, storeStep_dout b hsum, dif_pos hj, dif_neg (by omega),
      dif_pos (by omega)]
    simp
  · rw [storeStep_dout b hlt, dif_neg (by omega), dif_neg (by omega)]

/-- Settles O31: the reset event, a host turn that keeps the state or accepts a command, and the engine's transition from
each state. -/
theorem transitionsFollowTheTable : Obligations.TransitionsFollowTheTable := by
  intro s t hinv hstep
  refine ⟨fun hturn => ?_, fun hturn => ?_, fun hturn => ?_⟩
  · rw [step_of_nextTurn_reset hturn] at hstep
    cases hstep
    exact ⟨rfl, by simp [Block.statusByte]⟩
  · rw [step_of_nextTurn_host hturn] at hstep
    obtain ⟨u, hu, -, hblock⟩ := hostTurn_cases s.dropTurn
    cases hu.symm.trans hstep
    rcases sameControl_or_justAccepted_of_hostTurn hblock with hsame | ⟨hidle, haccepted⟩
    · exact .inl ⟨hsame.phase, hsame.busy⟩
    · exact .inr ⟨hinv.phase_of_idle hidle, haccepted.busy, haccepted.start.symm.imp_left And.left⟩
  · rw [step_of_nextTurn_engine hturn] at hstep
    cases hstep
    have hbusy (hne : s.block.phase ≠ .idle) : s.block.busy = true := hinv.busy_iff.mpr hne
    have herr (hne : s.block.phase ≠ .idle) : s.block.err = false := (hinv.flags_of_busy (hbusy hne)).2
    split <;> rename_i hphase
    · have hidle : s.block.busy = false := Bool.eq_false_iff.mpr fun h => hinv.busy_iff.mp h hphase
      exact engineStep_idle hidle
    · exact engineStep_from_kgen (hbusy (by simp [hphase])) (herr (by simp [hphase])) hphase
    · exact engineStep_from_load (hbusy (by simp [hphase])) hphase
    · exact engineStep_from_round (hbusy (by simp [hphase])) (hinv.round_rnd hphase) hphase
    · exact engineStep_from_store (hbusy (by simp [hphase])) (herr (by simp [hphase])) hphase

/-- Settles O42: the length check is the first step of a process, and PROCESS begins there, ENCRYPT and DECRYPT after
their key generation. -/
theorem oddLengthAlwaysFails : Obligations.OddLengthAlwaysFails :=
  ⟨fun _ keys m hodd => process_odd hodd keys m, fun _ m _ hodd =>
    ⟨iterate_acceptProcess_odd_statusByte hodd m 0, iterate_acceptCrypt_odd_statusByte hodd m⟩⟩

/-- Settles O49: the halves keep their length through the rounds, and STORE writes `2 * H = BLEN` cells. -/
theorem processKeepsTheLength : Obligations.ProcessKeepsTheLength := by
  refine ⟨fun _ _ _ _ => process_length, fun b hbusy hphase heven => ?_⟩
  have hjoin := storeStep_join b
  have hrest := storeStep_rest b
  rw [two_mul_half_of_even heven] at hjoin hrest
  rw [engineStep_store hbusy hphase]
  exact ⟨hjoin, hrest⟩

/-- Settles O50: no key means no round; the second exchange undoes the first, since both modes read the same empty
sequence of keys. -/
theorem zeroRoundsSwapTheHalves : Obligations.ZeroRoundsSwapTheHalves := by
  refine ⟨fun block m heven => ⟨process_no_keys heven m, ?_⟩, ?_⟩
  · exact (process_reverse _ [] m).trans (process_undo (process_no_keys heven m))
  · intro b m _ hklen heven t
    have hdone : b.ProcessDone m t := by
      have hend := iterate_acceptProcess_even heven m
      rwa [hklen] at hend
    obtain ⟨hkey, -, -, hrnd⟩ := hdone.operands_eq
    refine ⟨?_, hrnd.trans hklen, hdone.statusByte, hkey⟩
    have hlength : (firstCells b.din b.blen.toNat).length = b.blen.toNat :=
      firstCells_length _ (by have := b.blen.isLt; show _ ≤ 254; omega)
    have hresult : process (firstCells b.din b.blen.toNat) [] m = .ok (firstCells t.dout b.blen.toNat) := by
      have hresult := hdone.result
      rwa [hklen] at hresult
    have hswap := process_no_keys (by rwa [hlength]) m
    rw [hlength] at hswap
    exact Except.ok.inj (hresult.symm.trans hswap)

/-- Settles O51: with `H = 0` the cells that a process keeps are all the cells. -/
theorem emptyBlockChangesNoCell : Obligations.EmptyBlockChangesNoCell := by
  refine ⟨process_nil, fun b m _ hblen => ?_⟩
  have heven : b.blen.toNat % 2 = 0 := by rw [hblen]; rfl
  have hhalf : (b.acceptProcess m).half = 0 := by
    show b.blen.toNat / 2 = 0
    rw [hblen]
    rfl
  refine ⟨fun i hi => ?_, ?_, ?_⟩
  · obtain ⟨left, right, hrounds, -, hleft, hright⟩ := iterate_rounds (b := b.acceptProcess m) rfl rfl heven hi
    rw [hhalf] at hleft hright
    rw [hrounds, eq_of_cellsFrom_zero hleft, eq_of_cellsFrom_zero hright]
  · obtain ⟨left, right, hstore, hleft, hright⟩ := iterate_to_store (b := b.acceptProcess m) rfl rfl heven
    rw [hhalf] at hleft hright
    rw [eq_of_cellsFrom_zero hleft, eq_of_cellsFrom_zero hright] at hstore
    exact hstore
  · obtain ⟨hblock, -, -, hdout, hleft, hright⟩ := iterate_acceptProcess_even heven m
    rw [hblen] at hdout hleft hright
    rw [eq_of_cellsFrom_zero hdout, eq_of_cellsFrom_zero hleft, eq_of_cellsFrom_zero hright] at hblock
    exact hblock

/-- Settles O52: a position of the halves goes through the rounds by itself, as the halves of a two-byte block. -/
theorem positionsAreIndependent : Obligations.PositionsAreIndependent := by
  intro block keys out m h j hj
  obtain ⟨heven, g, hg, hbalanced, rfl⟩ := process_eq_ok h
  obtain ⟨x, y, hx, hy, hbefore⟩ := Halves.column_of_lt (Halves.split_balanced heven) hj
  obtain ⟨v, u, hv, hu, hafter⟩ := Halves.column_of_lt hbalanced hj
  have hcolumn : (Halves.split [x, y]).afterRounds m keys keys.length = ⟨[v], [u]⟩ := by
    rw [← hafter, ← hg, Halves.afterRounds_column, hbefore]
    exact congrArg (Halves.afterRounds m keys · _) (Halves.split_append (l := [x]) (r := [y]) rfl)
  obtain ⟨hleft, hright⟩ := hbalanced
  refine ⟨x, y, u, v, ?_, ?_, ?_, ?_, ?_⟩
  · rwa [Halves.split, List.getElem?_take_of_lt hj] at hx
  · rwa [Halves.split, List.getElem?_drop] at hy
  · rw [List.getElem?_append_left (by omega), hu]
  · rw [List.getElem?_append_right (by omega), hright, Nat.add_sub_cancel_left, hv]
  · rw [process_even (block := [x, y]) (Nat.mod_self 2), hcolumn]
    rfl

/-- Settles O53: of even length both results are `process` of the same operands, and of odd length both abort. -/
theorem earlierCommandsDoNotInfluenceAProcess : Obligations.EarlierCommandsDoNotInfluenceAProcess := by
  intro b c m _ _ hblen hklen hdin hkey b' c'
  rcases Nat.mod_two_eq_zero_or_one b.blen.toNat with heven | hodd
  · have hb : b.ProcessDone m b' := iterate_acceptProcess_even heven m
    have hc : c.ProcessDone m c' := by
      have := iterate_acceptProcess_even (b := c) (hblen ▸ heven) m
      rwa [← hklen] at this
    have hresult := hc.result
    rw [← hblen, ← hklen, ← hdin, ← hkey] at hresult
    obtain ⟨-, -, -, hrndb⟩ := hb.operands_eq
    obtain ⟨-, -, -, hrndc⟩ := hc.operands_eq
    exact ⟨hb.statusByte.trans hc.statusByte.symm, fun _ => ⟨Except.ok.inj (hb.result.symm.trans hresult),
      hrndb.trans (hklen.trans hrndc.symm)⟩⟩
  · have hb : b'.statusByte = 0x04#8 := iterate_acceptProcess_odd_statusByte hodd m _
    have hc : c'.statusByte = 0x04#8 := iterate_acceptProcess_odd_statusByte (hblen ▸ hodd) m _
    exact ⟨hb.trans hc.symm, fun heven => by omega⟩

end Sys2Proof.Machine
end

section
/-! PROOFS. Statements of spec/42_wrappers_system.md: the chained commands ENCRYPT and DECRYPT (R110, R111), the agreement
of the levels for them (R113), and NOP (R112). A chained command is a key generation and then a process, with no idle point
between. -/

namespace Sys2Proof.Machine

/-! ### The key generation of a chained command (R77, R110) -/

theorem exec_crypt {i : Instr} {m : Mode} {s : State} (hidle : s.block.busy = false)
    (him : (i = .encrypt ∧ m = .forward) ∨ (i = .decrypt ∧ m = .inverse)) :
    exec i s = .next { s with block := s.block.acceptCrypt m } := by
  rcases him with ⟨rfl, rfl⟩ | ⟨rfl, rfl⟩
  · exact (cryptIsAccepted s hidle).1
  · exact (cryptIsAccepted s hidle).2

/-- The block `b` in the midst of an ENCRYPT or DECRYPT that it accepted: the key generation has filled the key store, and
the LOAD step comes next. -/
def Block.keysReady (b : Block) (m : Mode) (key : Vector Byte Config.keyCells) : Block :=
  { b.acceptCrypt m with key := key, ki := b.rounds, klen := b.rounds, phase := .load }

theorem iterate_acceptCrypt_kgen (b : Block) (m : Mode) :
    ∃ key, Block.engineStep^[b.rounds.toNat + 1] (b.acceptCrypt m) = b.keysReady m key ∧
      firstCells key b.rounds.toNat = generate b.rounds.toNat ∧
      cellsFrom key b.rounds.toNat = cellsFrom b.key b.rounds.toNat :=
  iterate_genkeys (b := b.acceptCrypt m) rfl rfl rfl

/-- Up to and including the exit of its key generation a chained command keeps the block busy. -/
theorem iterate_acceptCrypt_kgen_running (b : Block) (m : Mode) {k : Nat} (hk : k < b.rounds.toNat + 2) :
    (Block.engineStep^[k] (b.acceptCrypt m)).busy = true := by
  obtain ⟨key, hkgen, -⟩ := iterate_acceptCrypt_kgen b m
  refine busy_of_iterate_busy (Nat.lt_succ_iff.mp hk) ?_
  rw [hkgen]
  rfl

/-! ### A chained command of even length (R110, R111) -/

/-- The engine steps of a chained command from its key generation on are those of the process alone. -/
theorem iterate_acceptCrypt_add {b : Block} {m : Mode} {key : Vector Byte Config.keyCells}
    (hkgen : Block.engineStep^[b.rounds.toNat + 1] (b.acceptCrypt m) = b.keysReady m key) (n : Nat) :
    Block.engineStep^[n + (b.rounds.toNat + 1)] (b.acceptCrypt m) = Block.engineStep^[n] (b.keysReady m key) := by
  rw [Function.iterate_add_apply, hkgen]

/-- Until its last step a chained command of even length keeps the block busy. -/
theorem iterate_acceptCrypt_running {b : Block} (heven : b.blen.toNat % 2 = 0) (m : Mode) {k : Nat}
    (hk : k < 2 * b.rounds.toNat + 4) : (Block.engineStep^[k] (b.acceptCrypt m)).busy = true := by
  obtain ⟨key, hkgen, -⟩ := iterate_acceptCrypt_kgen b m
  have hle : k ≤ (b.rounds.toNat + 2) + (b.rounds.toNat + 1) := by omega
  refine busy_of_iterate_busy hle ?_
  rw [iterate_acceptCrypt_add hkgen]
  exact iterate_process_running (b := b.keysReady m key) rfl rfl heven (Nat.lt_succ_self _)

/-- `t` is the block `b` at the end of an ENCRYPT or DECRYPT of mode `m` and of even length that `b` accepted: the registers
and cells R110 names, and no others, have changed, the schedule is generated and `DOUT` holds `process` of it. -/
structure Block.CryptDone (b : Block) (m : Mode) (t : Block) : Prop where
  block : t = { b with
    key := t.key, klen := b.rounds, ki := b.rounds
    dout := t.dout, left := t.left, right := t.right, rnd := b.rounds
    busy := false, done := true, err := false, phase := .idle, mode := m, chain := true }
  schedule : firstCells t.key b.rounds.toNat = generate b.rounds.toNat
  key_rest : cellsFrom t.key b.rounds.toNat = cellsFrom b.key b.rounds.toNat
  result : process (firstCells b.din b.blen.toNat) (generate b.rounds.toNat) m = .ok (firstCells t.dout b.blen.toNat)
  halves : firstCells t.right (b.blen.toNat / 2) ++ firstCells t.left (b.blen.toNat / 2) =
    firstCells t.dout b.blen.toNat
  dout_rest : cellsFrom t.dout b.blen.toNat = cellsFrom b.dout b.blen.toNat
  left_rest : cellsFrom t.left (b.blen.toNat / 2) = cellsFrom b.left (b.blen.toNat / 2)
  right_rest : cellsFrom t.right (b.blen.toNat / 2) = cellsFrom b.right (b.blen.toNat / 2)

theorem iterate_acceptCrypt_even {b : Block} (heven : b.blen.toNat % 2 = 0) (m : Mode) :
    b.CryptDone m (Block.engineStep^[2 * b.rounds.toNat + 4] (b.acceptCrypt m)) := by
  obtain ⟨key, hkgen, hschedule, hkey⟩ := iterate_acceptCrypt_kgen b m
  obtain ⟨dout, left, right, hend, hresult, hhalves, hdout, hleft, hright⟩ :=
    iterate_process (b := b.keysReady m key) rfl rfl heven
  have hsteps : 2 * b.rounds.toNat + 4 = (b.rounds.toNat + 3) + (b.rounds.toNat + 1) := by omega
  have hblock : Block.engineStep^[2 * b.rounds.toNat + 4] (b.acceptCrypt m) = _ :=
    hsteps ▸ (iterate_acceptCrypt_add hkgen _).trans hend
  rw [hblock]
  exact ⟨rfl, hschedule, hkey, hschedule ▸ hresult, hhalves, hdout, hleft, hright⟩

theorem Block.CryptDone.operands_eq {b t : Block} {m : Mode} (h : b.CryptDone m t) :
    t.rounds = b.rounds ∧ t.blen = b.blen := by
  rw [h.block]
  exact ⟨rfl, rfl⟩

theorem Block.CryptDone.phaseByte_of_inverse {b t : Block} (h : b.CryptDone .inverse t) : t.phaseByte = 0x18#8 := by
  apply BitVec.eq_of_toNat_eq
  rw [phaseByte_toNat, h.block]
  rfl

/-- A second chained command, of another input block with the same `ROUNDS`. -/
theorem Block.CryptDone.iterate_again {b t : Block} {m : Mode} (h : b.CryptDone m t)
    (heven : b.blen.toNat % 2 = 0) (din : Vector Byte Config.dbufCells) (m' : Mode) :
    ({ t with din := din } : Block).CryptDone m'
      (Block.engineStep^[2 * b.rounds.toNat + 4] ({ t with din := din }.acceptCrypt m')) := by
  obtain ⟨hrounds, hblen⟩ := h.operands_eq
  rw [← hblen] at heven
  rw [← hrounds]
  exact iterate_acceptCrypt_even (b := { t with din := din }) heven m'

/-! ### A chained command of odd length (R98, R110) -/

/-- The abort comes after the key generation, and takes nothing of it back. -/
theorem iterate_acceptCrypt_odd {b : Block} (hodd : b.blen.toNat % 2 = 1) (m : Mode) :
    ∃ key, Block.engineStep^[b.rounds.toNat + 2] (b.acceptCrypt m) = (b.keysReady m key).raiseMalformedInput ∧
      firstCells key b.rounds.toNat = generate b.rounds.toNat ∧
      cellsFrom key b.rounds.toNat = cellsFrom b.key b.rounds.toNat := by
  obtain ⟨key, hkgen, hcells⟩ := iterate_acceptCrypt_kgen b m
  have hload : (b.keysReady m key).engineStep = (b.keysReady m key).raiseMalformedInput :=
    (engineStep_load rfl rfl).trans (loadStep_odd hodd)
  exact ⟨key, by rw [iterate_succ, hkgen, hload], hcells⟩

/-! ### The statements -/

/-- Settles O43: the block stays busy until the last engine step, so the host steps between change nothing, and the engine
steps alone are the key generation and then the process of its schedule, or the abort. -/
theorem cryptAgreesWithFunction : Obligations.CryptAgreesWithFunction := by
  intro s ts rest i m hidle him hturns
  refine ⟨fun heven hrun => ?_, fun hodd hrun => ?_⟩
  · obtain ⟨t, ht, hrest, hblock⟩ := run_engineRun (s := { s with block := s.block.acceptCrypt m }) hrun hturns
      fun k hk => iterate_acceptCrypt_running heven m hk
    obtain ⟨hend, hschedule, hkey, hresult, hhalves, hdout, hleft, hright⟩ :=
      hblock ▸ iterate_acceptCrypt_even heven m
    exact ⟨_, t, exec_crypt hidle him, ht, hrest, hend, hschedule, hkey, hresult, hhalves, hdout, hleft, hright⟩
  · obtain ⟨t, ht, hrest, hblock⟩ := run_engineRun (s := { s with block := s.block.acceptCrypt m }) hrun hturns
      fun k hk => iterate_acceptCrypt_kgen_running s.block m hk
    obtain ⟨key, habort, hcells⟩ := iterate_acceptCrypt_odd hodd m
    have hend : t.block = (s.block.keysReady m key).raiseMalformedInput := hblock.trans habort
    obtain rfl : t.block.key = key := by rw [hend]; rfl
    exact ⟨_, t, exec_crypt hidle him, ht, hrest, hend ▸ raiseMalformedInput_statusByte _, hend, hcells⟩

/-- Settles O48: both commands generate the same schedule from the same `ROUNDS`, and a process of one mode undoes one of
the other. -/
theorem decryptUndoesEncrypt : Obligations.DecryptUndoesEncrypt := by
  intro b din _ heven mid hdin fin
  have hmid : b.CryptDone .forward mid := iterate_acceptCrypt_even heven .forward
  have hfin : ({ mid with din := din } : Block).CryptDone .inverse fin := hmid.iterate_again heven din .inverse
  obtain ⟨hrounds, hblen⟩ := hmid.operands_eq
  refine ⟨?_, hfin.phaseByte_of_inverse⟩
  have hresult : process (firstCells din mid.blen.toNat) (generate mid.rounds.toNat) .inverse =
    .ok (firstCells fin.dout mid.blen.toNat) := hfin.result
  rw [hrounds, hblen, hdin] at hresult
  exact Except.ok.inj (hresult.symm.trans (process_undo hmid.result))

/-- Settles O20: the meaning of NOP is the state itself. -/
theorem nopHasNoEffect : Obligations.NopHasNoEffect := fun _ => rfl

end Sys2Proof.Machine
end

section
/-! PROOFS. Statements of spec/70_reset_and_hazards.md: the reset event (R140), a busy block under host steps (R144), and
the engine steps of a command (R149) with the progress they make (R150). The count `Block.stepsLeft` falls by one at each
engine step of a block that meets R26, so it says how long `BUSY` stays 1. -/

namespace Sys2Proof.Machine

/-! ### The engine steps left, from each state of the machine (R149) -/

section StepsLeft

variable {b : Block}

theorem stepsLeft_of_idle (hphase : b.phase = .idle) : b.stepsLeft = 0 := by
  simp [Block.stepsLeft, hphase]

theorem stepsLeft_of_kgen (hphase : b.phase = .kgen) :
    b.stepsLeft = b.rounds.toNat - b.ki.toNat + 1 +
      (if b.chain then (if b.lengthOdd then 1 else b.rounds.toNat + 3) else 0) := by
  simp [Block.stepsLeft, hphase]

theorem stepsLeft_of_load (hphase : b.phase = .load) :
    b.stepsLeft = if b.lengthOdd then 1 else b.klen.toNat + 3 := by
  simp [Block.stepsLeft, hphase]

theorem stepsLeft_of_round (hphase : b.phase = .round) : b.stepsLeft = b.klen.toNat - b.rnd.toNat + 2 := by
  simp [Block.stepsLeft, hphase]

theorem stepsLeft_of_store (hphase : b.phase = .store) : b.stepsLeft = 1 := by
  simp [Block.stepsLeft, hphase]

theorem stepsLeft_pos_iff : 0 < b.stepsLeft ↔ b.phase ≠ .idle := by
  cases hphase : b.phase with
  | idle => simp [stepsLeft_of_idle hphase]
  | kgen => simp [stepsLeft_of_kgen hphase]
  | load =>
    rw [stepsLeft_of_load hphase]
    split <;> simp
  | round => simp [stepsLeft_of_round hphase]
  | store => simp [stepsLeft_of_store hphase]

/-- The longest way still to go is that of ENCRYPT or DECRYPT with `ROUNDS = 255`, from its acceptance. -/
theorem stepsLeft_le : b.stepsLeft ≤ 514 := by
  have hrounds := b.rounds.isLt
  have hklen := b.klen.isLt
  cases hphase : b.phase with
  | idle => simp [stepsLeft_of_idle hphase]
  | kgen =>
    rw [stepsLeft_of_kgen hphase]
    split_ifs <;> omega
  | load =>
    rw [stepsLeft_of_load hphase]
    split <;> omega
  | round =>
    rw [stepsLeft_of_round hphase]
    omega
  | store => simp [stepsLeft_of_store hphase]

/-! ### One engine step takes one off the count (R149, R150) -/

theorem kgenStep_stepsLeft (hphase : b.phase = .kgen) (hle : b.ki.toNat ≤ b.rounds.toNat) :
    b.kgenStep.stepsLeft + 1 = b.stepsLeft := by
  rw [stepsLeft_of_kgen hphase]
  by_cases hlt : b.ki.toNat < b.rounds.toNat
  · have hnext : b.kgenStep.stepsLeft = b.rounds.toNat - (b.ki + 1#8).toNat + 1 +
        (if b.chain then (if b.lengthOdd then 1 else b.rounds.toNat + 3) else 0) := by
      rw [kgenStep_key hlt]
      exact stepsLeft_of_kgen hphase
    rw [hnext, toNat_succ hlt]
    omega
  · have hexit := Nat.not_lt.mp hlt
    cases hchain : b.chain with
    | true =>
      have hnext : b.kgenStep.stepsLeft = if b.lengthOdd then 1 else b.rounds.toNat + 3 := by
        rw [kgenStep_chain hexit hchain]
        exact stepsLeft_of_load rfl
      rw [hnext, if_pos rfl]
      omega
    | false =>
      rw [kgenStep_end hexit hchain, stepsLeft_of_idle rfl, if_neg Bool.false_ne_true]
      omega

theorem loadStep_stepsLeft (hphase : b.phase = .load) : b.loadStep.stepsLeft + 1 = b.stepsLeft := by
  rw [stepsLeft_of_load hphase]
  split_ifs with hodd
  · rw [loadStep_odd ((lengthOdd_iff b).mp hodd), stepsLeft_of_idle rfl]
  · have heven := (lengthOdd_false_iff b).mp (Bool.eq_false_iff.mpr hodd)
    rw [loadStep_even heven, stepsLeft_of_round rfl]
    rfl

theorem roundStep_stepsLeft (hphase : b.phase = .round) (hle : b.rnd.toNat ≤ b.klen.toNat) :
    b.roundStep.stepsLeft + 1 = b.stepsLeft := by
  rw [stepsLeft_of_round hphase]
  by_cases hlt : b.rnd.toNat < b.klen.toNat
  · have hnext : b.roundStep.stepsLeft = b.klen.toNat - (b.rnd + 1#8).toNat + 2 := by
      rw [roundStep_round hlt]
      exact stepsLeft_of_round hphase
    rw [hnext, toNat_succ hlt]
    omega
  · rw [roundStep_exit (Nat.not_lt.mp hlt), stepsLeft_of_store rfl]
    omega

theorem storeStep_stepsLeft (hphase : b.phase = .store) : b.storeStep.stepsLeft + 1 = b.stepsLeft := by
  rw [stepsLeft_of_store hphase, storeStep_eq, stepsLeft_of_idle rfl]

end StepsLeft

namespace Block.Inv

variable {b : Block} (h : b.Inv)
include h

/-- While a command runs each engine step brings its end one step nearer. -/
theorem engineStep_stepsLeft_add_one (hbusy : b.busy = true) : b.engineStep.stepsLeft + 1 = b.stepsLeft := by
  cases hphase : b.phase with
  | idle => exact absurd hphase (h.busy_iff.mp hbusy)
  | kgen => exact engineStep_kgen hbusy hphase ▸ kgenStep_stepsLeft hphase (h.kgen_ki hphase)
  | load => exact engineStep_load hbusy hphase ▸ loadStep_stepsLeft hphase
  | round => exact engineStep_round hbusy hphase ▸ roundStep_stepsLeft hphase (h.round_rnd hphase)
  | store => exact engineStep_store hbusy hphase ▸ storeStep_stepsLeft hphase

theorem stepsLeft_of_not_busy (hidle : b.busy = false) : b.stepsLeft = 0 :=
  stepsLeft_of_idle (h.phase_of_idle hidle)

theorem engineStep_stepsLeft : b.engineStep.stepsLeft = b.stepsLeft - 1 := by
  cases hbusy : b.busy with
  | true => exact Nat.eq_sub_of_add_eq (h.engineStep_stepsLeft_add_one hbusy)
  | false => rw [engineStep_idle hbusy, h.stepsLeft_of_not_busy hbusy]

theorem busy_eq_decide : b.busy = decide (0 < b.stepsLeft) := by
  rw [Bool.eq_iff_iff, decide_eq_true_iff, stepsLeft_pos_iff]
  exact h.busy_iff

/-! ### Runs of engine steps -/

/-- `k` engine steps keep R26 and take `k` off the count. -/
theorem iterate_engineStep (k : Nat) :
    (Block.engineStep^[k] b).Inv ∧ (Block.engineStep^[k] b).stepsLeft = b.stepsLeft - k := by
  induction k with
  | zero => exact ⟨h, rfl⟩
  | succ k ih =>
    obtain ⟨hinv, hleft⟩ := ih
    rw [iterate_succ, hinv.engineStep_stepsLeft, hleft]
    exact ⟨(engineMove_engineStep _).inv hinv, Nat.sub_sub _ _ _⟩

/-- `BUSY` is 1 for exactly the engine steps left. -/
theorem iterate_busy (k : Nat) : (Block.engineStep^[k] b).busy = decide (k < b.stepsLeft) := by
  obtain ⟨hinv, hleft⟩ := h.iterate_engineStep k
  rw [hinv.busy_eq_decide, hleft, decide_eq_decide]
  exact Nat.sub_pos_iff_lt

end Block.Inv

/-- Where no turn is laid down, a block that stays busy takes engine steps alone (R150; assumption log 3). -/
theorem run_of_turns_nil {s : State} (hturns : s.turns = []) {k : Nat}
    (hbusy : ∀ j < k, (Block.engineStep^[j] s.block).busy = true) :
    run k s = .next { s with block := Block.engineStep^[k] s.block } := by
  induction k generalizing s with
  | zero => rfl
  | succ k ih =>
    obtain ⟨-, -, halone, -⟩ := stepTakesEngineAndResetTurns s []
    rw [run_succ (halone hturns (hbusy 0 k.succ_pos))]
    exact ih (s := { s with block := s.block.engineStep }) hturns fun j hj => hbusy (j + 1) (Nat.succ_lt_succ hj)

/-! ### The engine steps of each command (R149) -/

theorem acceptGenkeys_stepsLeft (b : Block) : b.acceptGenkeys.stepsLeft = b.rounds.toNat + 1 :=
  stepsLeft_of_kgen rfl

theorem acceptProcess_stepsLeft (b : Block) (m : Mode) :
    (b.acceptProcess m).stepsLeft = if b.lengthOdd then 1 else b.klen.toNat + 3 :=
  stepsLeft_of_load rfl

theorem acceptCrypt_stepsLeft (b : Block) (m : Mode) :
    (b.acceptCrypt m).stepsLeft = b.rounds.toNat + 1 + if b.lengthOdd then 1 else b.rounds.toNat + 3 :=
  stepsLeft_of_kgen rfl

/-- From its acceptance a command keeps `BUSY` at 1 for exactly the engine steps it has left then. -/
theorem exists_accepted_busy {i : Instr} {s : State} {c : Block} {count : Nat}
    (hexec : exec i s = .next { s with block := c }) (haccepted : c.JustAccepted) (hcount : c.stepsLeft = count) :
    ∃ t, exec i s = .next t ∧ count ≤ 514 ∧ ∀ k, (Block.engineStep^[k] t.block).busy = decide (k < count) :=
  hcount ▸ ⟨_, hexec, stepsLeft_le, haccepted.inv.iterate_busy⟩

/-! ### The packed registers after the reset event (R27, R140) -/

theorem resetEvent_statusByte (b : Block) : b.resetEvent.statusByte = 0x00#8 := by
  simp [Block.statusByte]

theorem resetEvent_phaseByte (b : Block) : b.resetEvent.phaseByte = 0x00#8 := by
  simp [Block.phaseByte, modeBit, PhaseState.code]

/-! ### Host steps on a busy block (R144) -/

/-- A busy block drops every command, as the write of its byte to `CMD`. -/
theorem exec_of_decode_cmd8_of_busy {s : State} (hbusy : s.block.busy = true) {v : Byte} {i : Instr}
    (hi : decode (.cmd8 v) = .ok i) : exec i s = .next s :=
  ((commandIsTheWriteOfItsByte s v).1 i hi).symm.trans (exec_wr_of_busy hbusy _ v)

theorem exec_of_busy_of_ne_rd {s : State} (hbusy : s.block.busy = true) {i : Instr} (hi : ∀ a, i ≠ .rd a) :
    exec i s = .next s := by
  cases i with
  | nop => exact nopHasNoEffect s
  | genkeys => exact exec_of_decode_cmd8_of_busy hbusy (v := 0x02#8) rfl
  | processFwd => exact exec_of_decode_cmd8_of_busy hbusy (v := 0x04#8) rfl
  | processInv => exact exec_of_decode_cmd8_of_busy hbusy (v := 0x05#8) rfl
  | encrypt => exact exec_of_decode_cmd8_of_busy hbusy (v := 0x06#8) rfl
  | decrypt => exact exec_of_decode_cmd8_of_busy hbusy (v := 0x07#8) rfl
  | wr a v => exact exec_wr_of_busy hbusy a v
  | rd a => exact absurd rfl (hi a)

/-! ### The statements -/

/-- Settles O39: the command ends when the count of the steps left is run down, and the count is at most 514. -/
theorem everyRunningCommandEnds : Obligations.EveryRunningCommandEnds := by
  intro s h hturns _
  have hrun := run_of_turns_nil hturns (k := s.block.stepsLeft) fun j hj => by simp [h.iterate_busy, hj]
  exact ⟨_, stepsLeft_le, _, hrun, by simp [h.iterate_busy], rfl, rfl⟩

/-- Settles O37: the count falls by one from each state of the machine but IDLE, where there is no step. -/
theorem eachEngineStepBringsTheEndNearer : Obligations.EachEngineStepBringsTheEndNearer := fun _ h =>
  ⟨h.engineStep_stepsLeft_add_one, fun hidle => ⟨h.stepsLeft_of_not_busy hidle, engineStep_idle hidle⟩⟩

/-- Settles O38: the count of each command is that of its acceptance; NOP and a reserved byte leave the block idle. -/
theorem stepCountsOfCommands : Obligations.StepCountsOfCommands := by
  intro s hidle r n odd i count hcase
  rcases hcase with ⟨hnone, rfl⟩ | ⟨rfl, rfl⟩ | ⟨hi, hcount⟩ | ⟨hi, hcount⟩
  · have hexec : exec i s = .next s := by
      rcases hnone with rfl | ⟨v, rfl, hv⟩
      · exact nopHasNoEffect s
      · exact (commandIsTheWriteOfItsByte s v).2 _ (decode_of_reservedByte hv)
    exact ⟨s, hexec, Nat.zero_le _, fun k => by simp [iterate_idle hidle, hidle]⟩
  · exact exists_accepted_busy (genkeysIsAccepted s hidle) (c := s.block.acceptGenkeys)
      ⟨rfl, rfl, rfl, .inr ⟨rfl, rfl⟩⟩ (acceptGenkeys_stepsLeft _)
  · obtain ⟨m, him⟩ : ∃ m, (i = .processFwd ∧ m = Mode.forward) ∨ (i = .processInv ∧ m = .inverse) := by
      rcases hi with rfl | rfl <;> simp
    refine exists_accepted_busy (exec_process hidle him) ⟨rfl, rfl, rfl, .inl rfl⟩ ?_
    simp only [acceptProcess_stepsLeft, lengthOdd_iff]
    split_ifs <;> omega
  · obtain ⟨m, him⟩ : ∃ m, (i = .encrypt ∧ m = Mode.forward) ∨ (i = .decrypt ∧ m = .inverse) := by
      rcases hi with rfl | rfl <;> simp
    refine exists_accepted_busy (exec_crypt hidle him) ⟨rfl, rfl, rfl, .inr ⟨rfl, rfl⟩⟩ ?_
    simp only [acceptCrypt_stepsLeft, lengthOdd_iff]
    split_ifs <;> omega

/-- Settles O24: what is no read is dropped, and a host turn writes the block through the host's write alone. -/
theorem hostStepsLeaveABusyBlockAlone : Obligations.HostStepsLeaveABusyBlockAlone := by
  intro s hbusy
  refine ⟨fun i => exec_of_busy_of_ne_rd hbusy, fun hhost => ?_⟩
  obtain ⟨ts, hts⟩ := List.head?_eq_some_iff.mp hhost
  obtain ⟨t, ht, -, hblock⟩ := step_host_busy hts hbusy
  exact ⟨t, ht, hblock⟩

/-- Settles O12: the reset turn applies the reset event, which ends in IDLE with `BUSY = 0`. -/
theorem resetEventSetsRegistersKeepsCells : Obligations.ResetEventSetsRegistersKeepsCells := by
  intro s ts hturns
  obtain ⟨-, hreset, -, -⟩ := stepTakesEngineAndResetTurns s ts
  exact ⟨_, hreset hturns, resetEvent_statusByte _, resetEvent_phaseByte _, rfl, rfl, rfl, rfl, rfl, rfl,
    rfl, rfl, rfl, rfl, rfl, engineStep_idle rfl⟩

end Sys2Proof.Machine
end

section
/-! PROOFS. The statement of spec/93_implementation_defined.md section 2: nothing is a fault and nothing is stuck. -/

namespace Sys2Proof.Machine

/-- Whichever agent's turn it is, a step answers a next state. -/
theorem step_next (s : State) : ∃ t, step s = .next t := by
  cases hturn : s.nextTurn with
  | host =>
    obtain ⟨t, ht, -, -⟩ := hostTurn_cases s.dropTurn
    exact ⟨t, (step_of_nextTurn_host hturn).trans ht⟩
  | engine => exact ⟨_, step_of_nextTurn_engine hturn⟩
  | reset => exact ⟨_, step_of_nextTurn_reset hturn⟩

/-- Settles O11: each agent's turn answers a next state, and so does each instruction, which keeps the host's side but
the delivered bytes. -/
theorem nothingStops : Obligations.NothingStops := by
  refine ⟨step_next, fun i s => ?_⟩
  obtain ⟨t, ht⟩ := exec_next i s
  obtain ⟨hscript, hturns, -⟩ := exec_cases ht
  exact ⟨t, ht, hscript, hturns⟩

end Sys2Proof.Machine
end
